-- ==== Sys2Proof/Word.lean ====
section
/-!
DEFINITION. The words of the machine, by their widths: bytes, instruction words, lanes, vector registers and register
numbers, and their plainest views (`00_scope.md` R5, R6, R8; `10_state.md` R11, R12).
-/

namespace Sys2Proof

/-- One byte of memory. -/
abbrev Byte := BitVec 8

/-- An instruction word, 32 bits (`30_encoding.md` R30). -/
abbrev Word := BitVec 32

/-- One lane, a 32-bit pattern (`00_scope.md` R7, `40_vector_float_add.md` R40). -/
abbrev Lane := BitVec 32

/-- The content of a vector register, 128 bits (`10_state.md` R11). -/
abbrev VReg := BitVec 128

/-- The number of a vector register, 0 to 127: the 7-bit operand number of form VX128 (`10_state.md` R11).
Form VX names 0 to 31 only, which `Instr.WellFormed` checks. -/
abbrev RegNo := BitVec 7

/-- The slice of `len` bits of `w` whose lowest bit has weight `2 ^ lo`: `w[lo+len-1 : lo]` of `00_scope.md` R6. -/
def slice {n : Nat} (w : BitVec n) (lo len : Nat) : BitVec len :=
  w.extractLsb' lo len

/-- Four bytes as one word, the first the most significant (big-endian, `20_memory.md` R21). -/
def wordOfBytes (b0 b1 b2 b3 : Byte) : Word :=
  b0 ++ b1 ++ b2 ++ b3

/-- The four bytes of a word, the most significant first (big-endian, `20_memory.md` R21). -/
def bytesOfWord (w : Word) : List Byte :=
  [slice w 24 8, slice w 16 8, slice w 8 8, slice w 0 8]

end Sys2Proof
end

