-- ==== Sys2Proof/Config.lean ====
section
/-!
DEFINITION. What the spec fixes as a parameter value (`00_scope.md` R5) and the one value it leaves free: which NaN a
lane delivers (`40_vector_float_add.md` R43).
-/

namespace Sys2Proof

/-- `PC_BITS`'s default (`00_scope.md` R5, decision D2). The width itself is a field of the machine's state. -/
def Config.pcBitsDefault : Nat := 32

/-- `NJ_RESET`: VSCR[NJ] after boot (`00_scope.md` R5, `10_state.md` R16). -/
def Config.njReset : Bool := true

/-- FREE VALUE (log entry 10): the sign bit of the NaN that `FAdd32 a b` delivers, true for 1. It has no body, so a
statement that mentions it holds for every function of the two arguments (`40_vector_float_add.md` R43, decision D10). -/
opaque Config.nanSign : Lane → Lane → Bool

/-- FREE VALUE (log entry 10): the fraction field of the NaN that `FAdd32 a b` delivers, less 1. A NaN's fraction is any
of 1 to `2 ^ 23 - 1`, so sign and fraction together range over every NaN pattern and over nothing else
(`40_vector_float_add.md` R40, R43). -/
opaque Config.nanFrac : Lane → Lane → Fin 8388607

end Sys2Proof
end

