-- ==== Sys2Proof/Machine/State.lean ====
section
/-!
DEFINITION. The machine's state as plain data, the reasons a step can end without a next state, and the state after reset
(`10_state.md` R10 to R17; the parameters of a run, `00_scope.md` R5).
-/

namespace Sys2Proof.Machine

/-- A partial map from byte addresses to bytes (`20_memory.md` R20) as a list of pairs, addresses strictly rising. An
address that is not listed has no value (log entry 7). -/
abbrev Memory := List Host.Cell

/-- The state. The first four fields are the machine's state of `10_state.md` R10. The last four are the parameters of a
run that a step reads and no step changes (`00_scope.md` R5, `70_reset_and_hazards.md` R70, R71); they stand here so that a
statement about every state is a statement about every choice of them. -/
structure State where
  /-- The vector register file `v[0..127]` (`10_state.md` R11). -/
  v : Vector VReg 128
  /-- `VSCR.NJ`, true for 1 (`10_state.md` R13). -/
  nj : Bool
  /-- `VSCR.SAT`, true for 1 (`10_state.md` R13). -/
  sat : Bool
  /-- The program counter: the byte address of the instruction being executed, an unsigned integer below `2 ^ pcBits`
  (`10_state.md` R14, `00_scope.md` R7). -/
  pc : Nat
  /-- `PC_BITS`, the width of `pc` (`00_scope.md` R5, decision D2). -/
  pcBits : Nat
  /-- `IMEM`, the instruction memory (`20_memory.md` R20). -/
  imem : Memory
  /-- `HALT_PC`, the address at which a run is over; none where no end is marked, as on the processor itself, which does
  not stop there (`70_reset_and_hazards.md` R71, log entry 6). -/
  haltPc : Option Nat
  /-- The launch premise `VMX_ENABLED` (`60_exceptions.md` R61, `70_reset_and_hazards.md` R70). -/
  vmxEnabled : Bool
  deriving DecidableEq, Repr

/-- What stops the machine without being a situation the spec has no meaning for. -/
inductive Fault where
  /-- The run is over: `pc = HALT_PC`, a final state, no fetch is made (`70_reset_and_hazards.md` R71, R72). Raised by
  `step` alone. It is the spec's normal end of a run and no error. Safe: the processor goes on, the model says nothing. -/
  | runOver
  deriving DecidableEq, Repr

/-- The situations in which the machine has no step and the state is not final (`60_exceptions.md` R61). -/
inductive Refusal where
  /-- An instruction that has no meaning in this model yet. No arm of `exec` raises it: both have their meaning. Safe. -/
  | notModelled (mnemonic : String)
  /-- The fetch did not succeed: `pc` is not a multiple of 4 (`20_memory.md` R22). Raised by `State.fetch`. Safe. -/
  | fetchMisaligned
  /-- The fetch did not succeed: a byte of the word at `pc` is outside `IMEM` (`20_memory.md` R22). Raised by
  `State.fetch`. Safe. -/
  | fetchOutsideImem
  /-- The word is neither `vaddfp` nor `vaddfp128` (`30_encoding.md` R36); it is not called illegal. Raised by `step`.
  Safe. -/
  | notSpecified
  /-- The launch premise `VMX_ENABLED` does not hold (`60_exceptions.md` R61 (c), decision D15). Raised by both
  instructions. Safe. -/
  | vmxNotEnabled
  deriving DecidableEq, Repr

/-- The machine after reset (`10_state.md` R16). `VSCR.NJ` is 1, as the source says. Every other value is one the spec
leaves to the launch and this model names: log entries 1 and 3 to 9. `State.launch` takes them all as inputs instead. -/
def State.reset : State where
  v := Vector.replicate 128 0
  nj := Config.njReset
  sat := false
  pc := 0
  pcBits := Config.pcBitsDefault
  imem := []
  haltPc := none
  vmxEnabled := true

end Sys2Proof.Machine
end

