-- ==== Sys2Proof/Machine/Flags.lean ====
section
/-!
DEFINITION. The two fields of VSCR (`10_state.md` R13). No instruction writes a flag (`40_vector_float_add.md` R44, R46,
R47), so there is no flag computation: NJ is read to choose the flush, SAT is neither read nor written.
-/

namespace Sys2Proof.Machine

/-- `VSCR.NJ`, read by both instructions: true where denormals are flushed (`40_vector_float_add.md` R45). -/
def State.readNj (s : State) : Bool := s.nj

/-- `VSCR.SAT`, read by no instruction in scope. -/
def State.readSat (s : State) : Bool := s.sat

end Sys2Proof.Machine
end

