-- ==== Sys2Proof/Machine/Float.lean ====
section
/-!
DEFINITION. The arithmetic of one lane (`40_vector_float_add.md` R40 to R45), computed exactly on integers: every finite
binary32 value is a multiple of `2 ^ -149`, and a sum is held as its multiple. `Machine/Rational.lean` says the same on
rationals, in the spec's own words.
-/

namespace Sys2Proof.Machine

/-! ### The format (`40_vector_float_add.md` R40) -/

/-- `sign(x) = x[31]`, true for 1. -/
def signOf (x : Lane) : Bool := x.msb

/-- `exp(x) = x[30:23]`. -/
def expOf (x : Lane) : Nat := (slice x 23 8).toNat

/-- `frac(x) = x[22:0]`. -/
def fracOf (x : Lane) : Nat := (slice x 0 23).toNat

/-- The lane with the given sign, exponent field and fraction field. -/
def packLane (sign : Bool) (exp frac : Nat) : Lane :=
  BitVec.ofBool sign ++ BitVec.ofNat 8 exp ++ BitVec.ofNat 23 frac

/-- The classes of a lane. -/
inductive LaneClass where
  | zero | denormal | normal | infinity | nan
  deriving DecidableEq, Repr

/-- The class of a lane. -/
def classOf (x : Lane) : LaneClass :=
  if expOf x = 0 then (if fracOf x = 0 then .zero else .denormal)
  else if expOf x = 255 then (if fracOf x = 0 then .infinity else .nan)
  else .normal

/-- Neither an infinity nor a NaN: the lanes that have a value `val(x)`. -/
def isFinite (x : Lane) : Bool := decide (expOf x ≠ 255)

/-- The infinity of the given sign. -/
def infinityLane (sign : Bool) : Lane := packLane sign 255 0

/-- `val(x) * 2 ^ 149` for a finite lane: `frac` for a zero or a denormal, `(2^23 + frac) * 2 ^ (exp - 1)` for a normal,
with the lane's sign. -/
def scaledVal (x : Lane) : Int :=
  let m : Nat := if expOf x = 0 then fracOf x else (2 ^ 23 + fracOf x) * 2 ^ (expOf x - 1)
  if signOf x then -(m : Int) else (m : Int)

/-! ### Flush (`40_vector_float_add.md` R41) -/

/-- `FlushDenorm(x)`: the zero with the sign of a denormal `x`; every other `x` unchanged (decision D9, log entry 12). -/
def flushDenorm (x : Lane) : Lane :=
  if classOf x = .denormal then packLane (signOf x) 0 0 else x

/-! ### The sum (`40_vector_float_add.md` R42, R43) -/

/-- `NaNResult(a, b)`: some NaN, which of them is free (log entry 10). -/
def nanResult (a b : Lane) : Lane :=
  packLane (Config.nanSign a b) 255 ((Config.nanFrac a b).val + 1)

/-- The integer nearest to `m / 2 ^ k`, the even one of two equally near (decision D8, log entry 11). -/
def nearestEven (m k : Nat) : Nat :=
  let q := m / 2 ^ k
  let r := m % 2 ^ k
  if 2 * r < 2 ^ k then q
  else if 2 ^ k < 2 * r then q + 1
  else q + q % 2

/-- The exponent and the 24-bit significand that `m * 2 ^ -149` rounds to. The exponent is kept as `e + 149`, which is
`max(floor(log2(m * 2 ^ -149)), -126) + 149`, one more where the significand rounded up to `2 ^ 24`. -/
def roundSignificand (m : Nat) : Nat × Nat :=
  let e := max m.log2 23
  let n := nearestEven m (e - 23)
  if n = 2 ^ 24 then (e + 1, 2 ^ 23) else (e, n)

/-- `Round32(s)` for the nonzero `s = t * 2 ^ -149`. -/
def round32 (t : Int) : Lane :=
  let sg := decide (t < 0)
  let p := roundSignificand t.natAbs
  if 276 < p.1 then infinityLane sg
  else if p.2 < 2 ^ 23 then packLane sg 0 p.2
  else packLane sg (p.1 - 22) (p.2 - 2 ^ 23)

/-- `FAdd32(a, b)`, its cases in the order of R42. -/
def fadd32 (a b : Lane) : Lane :=
  if classOf a = .nan ∨ classOf b = .nan then nanResult a b
  else if classOf a = .infinity ∧ classOf b = .infinity then (if a = b then a else nanResult a b)
  else if classOf a = .infinity then a
  else if classOf b = .infinity then b
  else if classOf a = .zero ∧ classOf b = .zero then (if a = b then a else 0)
  else if scaledVal a + scaledVal b = 0 then 0
  else round32 (scaledVal a + scaledVal b)

/-! ### The lane add (`40_vector_float_add.md` R45) -/

/-- `LaneAdd(a, b, nj)`: with `nj` set, denormal operands and a denormal result are flushed; with `nj` clear nothing is
(decision D11, log entry 13). -/
def laneAdd (a b : Lane) (nj : Bool) : Lane :=
  if nj then flushDenorm (fadd32 (flushDenorm a) (flushDenorm b))
  else fadd32 a b

end Sys2Proof.Machine
end

