-- ==== Sys2Proof/Syntax.lean ====
section
/-!
DEFINITION. The instructions of `spec/opcode_table.json`, one constructor a row (`00_scope.md` R2), and their assembler
spelling (`30_encoding.md` R39).
-/

namespace Sys2Proof

/-- The instructions in scope; operands in the order of the syntax: destination VD, source VA, source VB. -/
inductive Instr where
  /-- `vaddfp VD, VA, VB`, Vector Add Floating Point, form VX (`40_vector_float_add.md` R46). -/
  | vaddfp (vd va vb : RegNo)
  /-- `vaddfp128 VD, VA, VB`, Vector128 Add Floating Point, form VX128 (`40_vector_float_add.md` R47). -/
  | vaddfp128 (vd va vb : RegNo)
  deriving DecidableEq, Repr

/-- The mnemonic, as the opcode table spells it. -/
def Instr.mnemonic : Instr → String
  | .vaddfp _ _ _ => "vaddfp"
  | .vaddfp128 _ _ _ => "vaddfp128"

/-- The destination register number. -/
def Instr.dest : Instr → RegNo
  | .vaddfp vd _ _ => vd
  | .vaddfp128 vd _ _ => vd

/-- The register number of source A. -/
def Instr.srcA : Instr → RegNo
  | .vaddfp _ va _ => va
  | .vaddfp128 _ va _ => va

/-- The register number of source B. -/
def Instr.srcB : Instr → RegNo
  | .vaddfp _ _ vb => vb
  | .vaddfp128 _ _ vb => vb

/-- A register in assembler text: `v` and the decimal number (`30_encoding.md` R39; above 31 by decision D22). -/
def regName (r : RegNo) : String :=
  "v" ++ toString r.toNat

/-- An instruction in assembler text: the mnemonic, then VD, VA, VB (`30_encoding.md` R39). -/
def Instr.asm (i : Instr) : String :=
  i.mnemonic ++ " " ++ regName i.dest ++ ", " ++ regName i.srcA ++ ", " ++ regName i.srcB

end Sys2Proof
end

