-- ==== Sys2Proof/WellFormed.lean ====
section
/-!
DEFINITION. Which instructions have an encoding: `vaddfp` names registers in 5-bit fields, `vaddfp128` in 7-bit numbers
(`30_encoding.md` R31, R33).
-/

namespace Sys2Proof

/-- The number fits a 5-bit register field of form VX: `v0` to `v31` (`10_state.md` R11). -/
def fitsVx (r : RegNo) : Bool :=
  decide (r.toNat < 32)

/-- Every operand of `vaddfp` fits its 5-bit field; every 7-bit number is an operand of `vaddfp128`
(`40_vector_float_add.md` R46, R47). -/
def Instr.wellFormed : Instr → Bool
  | .vaddfp vd va vb => fitsVx vd && fitsVx va && fitsVx vb
  | .vaddfp128 _ _ _ => true

/-- The check as a proposition. -/
abbrev Instr.WellFormed (i : Instr) : Prop :=
  i.wellFormed = true

end Sys2Proof
end

