-- ==== Sys2Proof/Decode.lean ====
section
/-!
DEFINITION. Decoding a word and a list of bytes, and encoding an instruction (`30_encoding.md` R30 to R37 and section 9).
-/

namespace Sys2Proof

/-- Why bytes are not an instruction of the spec. None of these calls a word illegal: each says only that the spec does
not specify it (`30_encoding.md` R36, decision D6). -/
inductive DecodeError where
  /-- Fewer than the four bytes of a word (`30_encoding.md` R30). Only `decode` on a short list answers it. Safe. -/
  | truncated
  /-- The primary opcode is neither 4 nor 5. Safe: the processor may run the word, the model does not. -/
  | otherPrimaryOpcode
  /-- Primary opcode 4 with an extended opcode other than 10 (`30_encoding.md` R31). Safe, likewise. -/
  | otherExtendedOpcode
  /-- Primary opcode 5 with other fixed bits than `vaddfp128` has (`30_encoding.md` R35, decision D7). Safe, likewise. -/
  | otherFixedBits
  deriving DecidableEq, Repr

/-! ### Form VX (`30_encoding.md` R31) -/

/-- The primary opcode, source bits 0-5, `w[31:26]`. -/
def fieldOpcd (w : Word) : BitVec 6 := slice w 26 6

/-- Form VX: `VRT/VD`, source bits 6-10. -/
def fieldVxVd (w : Word) : BitVec 5 := slice w 21 5

/-- Form VX: `VRA/VA`, source bits 11-15. -/
def fieldVxVa (w : Word) : BitVec 5 := slice w 16 5

/-- Form VX: `VRB/VB`, source bits 16-20. -/
def fieldVxVb (w : Word) : BitVec 5 := slice w 11 5

/-- A 5-bit register number of form VX as an index of the register file (`10_state.md` R11). -/
def regOfVx (f : BitVec 5) : RegNo := f.setWidth 7

/-! ### Form VX128: the register numbers (`30_encoding.md` R33) -/

/-- `VD128 = VD128h || VD128l = w[3:2] || w[25:21]`. -/
def fieldVd128 (w : Word) : RegNo := slice w 2 2 ++ slice w 21 5

/-- `VA128 = VA128H || VA128h || VA128l = w[10] || w[5] || w[20:16]`. -/
def fieldVa128 (w : Word) : RegNo := slice w 10 1 ++ slice w 5 1 ++ slice w 16 5

/-- `VB128 = VB128h || VB128l = w[1:0] || w[15:11]`. -/
def fieldVb128 (w : Word) : RegNo := slice w 0 2 ++ slice w 11 5

/-! ### Decoding (`30_encoding.md` R34) -/

/-- The word matches `vaddfp`: primary opcode 4 and extended opcode 10. -/
def matchesVaddfp (w : Word) : Bool := w &&& 0xFC0007FF#32 == 0x1000000A#32

/-- The word matches `vaddfp128`: primary opcode 5, source bits 22 and 23-25 zero, source bit 27 one (R35). -/
def matchesVaddfp128 (w : Word) : Bool := w &&& 0xFC0003D0#32 == 0x14000010#32

/-- The name of the rejection of a word that matches neither pattern. -/
def rejectionOf (w : Word) : DecodeError :=
  if fieldOpcd w = 4 then .otherExtendedOpcode
  else if fieldOpcd w = 5 then .otherFixedBits
  else .otherPrimaryOpcode

/-- Decoding of a word: the two patterns, and a rejection by name of everything else (`30_encoding.md` R34, R36). -/
def decodeWord (w : Word) : Except DecodeError Instr :=
  if matchesVaddfp w then
    .ok (.vaddfp (regOfVx (fieldVxVd w)) (regOfVx (fieldVxVa w)) (regOfVx (fieldVxVb w)))
  else if matchesVaddfp128 w then .ok (.vaddfp128 (fieldVd128 w) (fieldVa128 w) (fieldVb128 w))
  else .error (rejectionOf w)

/-- Decoding of bytes, lowest address first: four of them make the word, the rest is handed back
(`30_encoding.md` R30, `20_memory.md` R21). -/
def decode : List Byte → Except DecodeError (Instr × List Byte)
  | b0 :: b1 :: b2 :: b3 :: rest =>
    match decodeWord (wordOfBytes b0 b1 b2 b3) with
    | .ok i => .ok (i, rest)
    | .error e => .error e
  | _ => .error .truncated

/-! ### Encoding, from the field tables (`30_encoding.md` R31, R32, R35) -/

/-- The word of form VX: OPCD 4, VD, VA, VB, XO 10. -/
def encodeVaddfp (vd va vb : RegNo) : Word :=
  4#6 ++ slice vd 0 5 ++ slice va 0 5 ++ slice vb 0 5 ++ 10#11

/-- The word of form VX128: OPCD 5, VD128l, VA128l, VB128l, VA128H, source bit 22 = 0, VC = 000, VA128h,
source bit 27 = 1, VD128h, VB128h. -/
def encodeVaddfp128 (vd va vb : RegNo) : Word :=
  5#6 ++ slice vd 0 5 ++ slice va 0 5 ++ slice vb 0 5
    ++ slice va 6 1 ++ 0#1 ++ 0#3 ++ slice va 5 1 ++ 1#1 ++ slice vd 5 2 ++ slice vb 5 2

/-- The word of a well-formed instruction. -/
def encode : Instr → Word
  | .vaddfp vd va vb => encodeVaddfp vd va vb
  | .vaddfp128 vd va vb => encodeVaddfp128 vd va vb

/-- The bytes of a well-formed instruction, lowest address first. -/
def encodeBytes (i : Instr) : List Byte := bytesOfWord (encode i)

/-! ### The table's numbering of an instruction's bits -/

/-- The word that the opcode table's `nbits` bits `w` stand for; both rows give all 32 bits, bit 0 the least significant. -/
def tableWord (nbits w : Nat) : Word := BitVec.ofNat 32 (w % 2 ^ nbits)

/-- What the decoder reads from an instruction whose bits are `w`, its word laid out big-endian. -/
def decodeTableWord (nbits w : Nat) : Option Instr :=
  match decode (bytesOfWord (tableWord nbits w)) with
  | .ok (i, _) => some i
  | .error _ => none

end Sys2Proof
end

