-- ==== Sys2Proof/Machine/Ops.lean ====
section
/-!
DEFINITION. The named operations over memory and registers: the partial byte map and its canonical form, `MemRead` and
`MemWrite`, the register file, the advance of the program counter, and the instruction fetch. There is no operation that
takes an exception or returns from one: the spec describes none (`60_exceptions.md` R60, R63, R64).
-/

namespace Sys2Proof.Machine

/-! ### The byte map -/

/-- The byte at an address, if the address is in the map's domain. -/
def Memory.read : Memory → Nat → Option Byte
  | [], _ => none
  | (k, b) :: m, a => if k = a then some b else Memory.read m a

/-- The map with one byte set; the list stays in rising order. -/
def Memory.write : Memory → Nat → Byte → Memory
  | [], a, b => [(a, b)]
  | (k, c) :: m, a, b =>
    if a < k then (a, b) :: (k, c) :: m
    else if a = k then (a, b) :: m
    else (k, c) :: Memory.write m a b

/-- The canonical form: addresses strictly rising. Nothing else is asked, since an unlisted address has no value, so no
entry can equal what an unlisted address reads as. -/
abbrev Memory.wf (m : Memory) : Prop :=
  (m.map Prod.fst).Pairwise (· < ·)

/-! ### Addresses, `MemRead` and `MemWrite` (`00_scope.md` R7, R8) -/

/-- Addition on addresses, modulo `2 ^ PC_BITS` (`00_scope.md` R7). -/
def State.addrAdd (s : State) (a k : Nat) : Nat :=
  (a + k) % 2 ^ s.pcBits

/-- The byte `IMEM[a]`, if `a` is in the domain. -/
def State.readByte (s : State) (a : Nat) : Option Byte :=
  Memory.read s.imem a

/-- The state with `IMEM[a]` set. No instruction does this (`20_memory.md` R29): it serves the launch. -/
def State.writeByte (s : State) (a : Nat) (b : Byte) : State :=
  { s with imem := Memory.write s.imem a b }

/-- `MemRead(addr, n)`: the bytes at `addr` to `addr + n - 1`, the lowest address most significant (`00_scope.md` R8,
`20_memory.md` R21); none if one of them is outside the domain. -/
def State.memRead (s : State) (addr : Nat) : (n : Nat) → Option (BitVec (8 * n))
  | 0 => some 0#0
  | n + 1 =>
    match s.memRead addr n, s.readByte (s.addrAdd addr n) with
    | some hi, some lo => some (hi ++ lo)
    | _, _ => none

/-- `MemWrite(addr, n, v)`, in the same byte order (`00_scope.md` R8). No instruction uses it: it serves the launch, and
says how a vector register lies in memory (`20_memory.md` R21). -/
def State.memWrite (s : State) (addr : Nat) : (n : Nat) → BitVec (8 * n) → State
  | 0, _ => s
  | n + 1, x => (s.memWrite addr n (slice x 8 (8 * n))).writeByte (s.addrAdd addr n) (slice x 0 8)

/-! ### The register file and the program counter -/

/-- A register number as an index of the register file. -/
def regIndex (r : RegNo) : Fin 128 := ⟨r.toNat, r.isLt⟩

/-- `v[r]` (`00_scope.md` R8). No register is hardwired (`10_state.md` R11). -/
def State.readV (s : State) (r : RegNo) : VReg :=
  s.v.get (regIndex r)

/-- `v[r] <- x` (`00_scope.md` R8). -/
def State.writeV (s : State) (r : RegNo) (x : VReg) : State :=
  { s with v := s.v.set (regIndex r) x }

/-- `pc <- pc + 4` (`10_state.md` R14). -/
def State.advancePc (s : State) : State :=
  { s with pc := s.addrAdd s.pc 4 }

/-! ### Instruction fetch (`20_memory.md` R22) -/

/-- The word at `pc`, or the reason the fetch does not succeed. -/
def State.fetch (s : State) : Except Refusal Word :=
  if s.pc % 4 = 0 then
    match s.memRead s.pc 4 with
    | some w => .ok w
    | none => .error .fetchOutsideImem
  else .error .fetchMisaligned

/-- The environment's placing of one word where the next fetch reads it, with no end of the run marked there
(`70_reset_and_hazards.md` R70, R75; log entry 8). -/
def State.placeWord (s : State) (w : Word) : State :=
  { s.memWrite s.pc 4 w with haltPc := if s.haltPc = some s.pc then none else s.haltPc }

end Sys2Proof.Machine
end

