-- ==== Sys2Proof/Machine/Operands.lean ====
section
/-!
DEFINITION. The views of a vector register (`00_scope.md` R8, `10_state.md` R12), and an operation on two registers lane by
lane (`40_vector_float_add.md` R48).
-/

namespace Sys2Proof.Machine

/-- `lane(V, i) = V[127-32*i : 96-32*i]`: lane 0 is the most significant 32 bits. -/
def lane (x : VReg) (i : Fin 4) : Lane :=
  slice x (96 - 32 * i.val) 32

/-- `lanes(l0, l1, l2, l3) = l0 || l1 || l2 || l3`. -/
def lanes (l0 l1 l2 l3 : Lane) : VReg :=
  l0 ++ l1 ++ l2 ++ l3

/-- The byte view: byte k is `V[127-8*k : 120-8*k]`, byte 0 the most significant. -/
def byteOf (x : VReg) (k : Fin 16) : Byte :=
  slice x (120 - 8 * k.val) 8

/-- The register whose lane i is `f` of the lanes i of `x` and `y`. -/
def mapLanes (f : Lane → Lane → Lane) (x y : VReg) : VReg :=
  lanes (f (lane x 0) (lane y 0)) (f (lane x 1) (lane y 1)) (f (lane x 2) (lane y 2)) (f (lane x 3) (lane y 3))

end Sys2Proof.Machine
end

