-- ==== Sys2Proof/Machine/VectorFloatAdd.lean ====
section
/-!
DEFINITION. The family of vector floating-point adds (`40_vector_float_add.md` R46 to R48).
-/

namespace Sys2Proof.Machine

/-- The effect the two instructions share: both sources are read in full, the four lane sums are written to `v[VD]`,
`pc <- pc + 4`, and nothing else changes; refused where the launch premise `VMX_ENABLED` does not hold
(`60_exceptions.md` R61 (c)). -/
def vectorFloatAdd (vd va vb : RegNo) (s : State) : Host.Outcome State Fault Refusal :=
  if s.vmxEnabled then
    let a := s.readV va
    let b := s.readV vb
    let nj := s.readNj
    .next (s.writeV vd (mapLanes (fun x y => laneAdd x y nj) a b)).advancePc
  else .refused .vmxNotEnabled

/-- `vaddfp VD, VA, VB` (R46). -/
def execVaddfp (vd va vb : RegNo) (s : State) : Host.Outcome State Fault Refusal :=
  vectorFloatAdd vd va vb s

/-- `vaddfp128 VD, VA, VB` (R47): "Semantics identical; only the register encoding differs." -/
def execVaddfp128 (vd va vb : RegNo) (s : State) : Host.Outcome State Fault Refusal :=
  vectorFloatAdd vd va vb s

end Sys2Proof.Machine
end

