-- ==== Sys2Proof/Machine/Dispatch.lean ====
section
/-! DEFINITION. Which meaning each instruction has: one arm per constructor, one direct call an arm. -/

namespace Sys2Proof.Machine

def exec (i : Instr) (s : State) : Host.Outcome State Fault Refusal :=
  match i with
  | .vaddfp vd va vb => Sys2Proof.Machine.execVaddfp vd va vb s
  | .vaddfp128 vd va vb => Sys2Proof.Machine.execVaddfp128 vd va vb s

end Sys2Proof.Machine
end

