-- ==== Sys2Proof/Machine/Step.lean ====
section
/-!
DEFINITION. One step (`70_reset_and_hazards.md` R72), and the placing of a word where the next step fetches.
-/

namespace Sys2Proof.Machine

/-- One step: none at a final state, else fetch, decode, execute (R72). The instruction itself advances `pc`. -/
def step (s : State) : Host.Outcome State Fault Refusal :=
  if s.haltPc = some s.pc then .fault .runOver
  else
    match s.fetch with
    | .error r => .refused r
    | .ok w =>
      match decodeWord w with
      | .error _ => .refused .notSpecified
      | .ok i => exec i s

/-- The state with the opcode table's bits `w` placed where `step` fetches its next instruction (log entry 8). -/
def State.withFetchWord (s : State) (nbits w : Nat) : State :=
  s.placeWord (tableWord nbits w)

end Sys2Proof.Machine
end

