-- ==== Sys2Proof/Machine/Launch.lean ====
section
/-!
DEFINITION. What the environment chooses before a run, and the state it starts from (`70_reset_and_hazards.md` R70, R71,
R75; `10_state.md` R16).
-/

namespace Sys2Proof.Machine

/-- The environment's choices, its only liberty (R75). No value is assumed for any of them. -/
structure Launch where
  /-- `PC_BITS`. -/
  pcBits : Nat
  /-- `IMEM`, which holds the program. -/
  imem : Memory
  /-- `ENTRY_PC`, the `pc` at the start. -/
  entryPc : Nat
  /-- `HALT_PC`, the `pc` at which the run is over. -/
  haltPc : Nat
  /-- The 128 vector registers. -/
  v : Vector VReg 128
  /-- `VSCR.NJ`, 1 if nothing since boot has changed it. -/
  nj : Bool
  /-- `VSCR.SAT`. -/
  sat : Bool
  /-- The premise `VMX_ENABLED`. -/
  vmxEnabled : Bool
  deriving DecidableEq, Repr

/-- The launch state (R70). -/
def State.launch (l : Launch) : State where
  v := l.v
  nj := l.nj
  sat := l.sat
  pc := l.entryPc
  pcBits := l.pcBits
  imem := l.imem
  haltPc := some l.haltPc
  vmxEnabled := l.vmxEnabled

end Sys2Proof.Machine
end

