-- ==== Sys2Proof/Machine/Rational.lean ====
section
/-!
DEFINITION. `val`, `Round32` and the sum of two finite lanes on exact rationals, as `40_vector_float_add.md` R40 and R42 word
them. The machine runs `Machine/Float.lean`; statements compare the two.
-/

namespace Sys2Proof.Machine

/-- `val(x)`, the exact rational value of a zero, denormal or normal lane (R40). R40 gives an infinity and a NaN no value;
0 stands for it and no statement uses it there. -/
def laneVal (x : Lane) : ℚ :=
  let sgn : ℚ := if signOf x then -1 else 1
  match classOf x with
  | .zero => 0
  | .denormal => sgn * fracOf x * 2 ^ (-149 : ℤ)
  | .normal => sgn * (2 ^ 23 + fracOf x) * 2 ^ ((expOf x : ℤ) - 150)
  | .infinity => 0
  | .nan => 0

/-- The integer nearest to `q`, and when `q` is exactly halfway between two integers the even one (R42). -/
def nearestEvenQ (q : ℚ) : ℤ :=
  if q - ⌊q⌋ < 1 / 2 then ⌊q⌋
  else if 1 / 2 < q - ⌊q⌋ then ⌊q⌋ + 1
  else if ⌊q⌋ % 2 = 0 then ⌊q⌋ else ⌊q⌋ + 1

/-- `Round32(s)` for a nonzero rational `s`, step by step as R42 gives it. -/
def round32Q (s : ℚ) : Lane :=
  let sg := decide (s < 0)
  let m := |s|
  let e₀ := max (Int.log 2 m) (-126)
  let q := m / 2 ^ (e₀ - 23)
  let n₀ := nearestEvenQ q
  let n := if n₀ = 2 ^ 24 then 2 ^ 23 else n₀
  let e := if n₀ = 2 ^ 24 then e₀ + 1 else e₀
  if e > 127 then infinityLane sg
  else if n < 2 ^ 23 then packLane sg 0 n.toNat
  else packLane sg (e + 127).toNat (n - 2 ^ 23).toNat

end Sys2Proof.Machine
end

