-- ==== Sys2Proof/Safety.lean ====
section
/-!
DEFINITION. The terms claims use: legal states, legal launches, final states, states that have a step.
-/

namespace Sys2Proof.Machine

/-- An address of the machine at which an instruction can stand: below `2 ^ PC_BITS` and a multiple of 4
(`10_state.md` R14, `20_memory.md` R22). -/
def InstrAddr (pcBits a : Nat) : Prop :=
  a < 2 ^ pcBits ∧ a % 4 = 0

/-- The launch premises (1) to (4) of `70_reset_and_hazards.md` R70, and R71's on `HALT_PC`: `IMEM` is a map of `PC_BITS`-wide
addresses in canonical form, `ENTRY_PC` and `HALT_PC` are addresses and multiples of 4, the vector unit may be used. That
`PC_BITS` is at least 2 is DEDUCED (log entry 2): an instruction takes four different addresses. -/
structure Launch.Legal (l : Launch) : Prop where
  width : 2 ≤ l.pcBits
  entry : InstrAddr l.pcBits l.entryPc
  halt : InstrAddr l.pcBits l.haltPc
  canonical : Memory.wf l.imem
  inSpace : ∀ c ∈ l.imem, c.1 < 2 ^ l.pcBits
  enabled : l.vmxEnabled = true

/-- Premise (5) of `70_reset_and_hazards.md` R70 by its name here (`60_exceptions.md` R62, R75; decision D16, log entry 20):
no interrupt and no other agent changes the state during the run `tr`, where `tr n` is the state before the n-th instruction.
What an instruction leaves is what the next one finds. It is an assumption about the environment, and false of a `tr` into
which something outside the machine wrote. -/
def Undisturbed (tr : Nat → State) : Prop :=
  ∀ n t, step (tr n) = .next t → tr (n + 1) = t

/-- The run has come to its n-th instruction: every step before it answered a next state. -/
def Reached (tr : Nat → State) (n : Nat) : Prop :=
  ∀ k, k < n → ∃ t, step (tr k) = .next t

/-- All the launch premises of a run, by name (`70_reset_and_hazards.md` R70): (1) to (4) are `Launch.Legal`, `VMX_ENABLED`
being its `enabled`; the run starts from the launch state, whose NJ is (3) and of whose other registers (6) nothing is
assumed; (5) is `Undisturbed`. -/
structure RunPremises (l : Launch) (tr : Nat → State) : Prop where
  legal : l.Legal
  start : tr 0 = State.launch l
  undisturbed : Undisturbed tr

/-- What holds of every state of a run: `pc` is an address and a multiple of 4 (`10_state.md` R14), an end of the run, where
one is marked, likewise (`70_reset_and_hazards.md` R71), and `IMEM` is a map of `PC_BITS`-wide addresses in canonical form
(`20_memory.md` R20). -/
structure State.Inv (s : State) : Prop where
  width : 2 ≤ s.pcBits
  pc : InstrAddr s.pcBits s.pc
  halt : ∀ h, s.haltPc = some h → InstrAddr s.pcBits h
  canonical : Memory.wf s.imem
  inSpace : ∀ c ∈ s.imem, c.1 < 2 ^ s.pcBits

/-- The state is final: `pc = HALT_PC` (`70_reset_and_hazards.md` R71). -/
def State.Final (s : State) : Prop :=
  s.haltPc = some s.pc

/-- The word at `pc` decodes to `i` (`20_memory.md` R22, `30_encoding.md` R34). -/
def State.At (s : State) (i : Instr) : Prop :=
  ∃ w, s.fetch = .ok w ∧ decodeWord w = .ok i

/-- The parameters of a run are the same in both states (`10_state.md` R10). -/
def State.SameRun (s t : State) : Prop :=
  t.pcBits = s.pcBits ∧ t.imem = s.imem ∧ t.haltPc = s.haltPc ∧ t.vmxEnabled = s.vmxEnabled

/-- The effect of a vector floating-point add from `s` to `t` (`40_vector_float_add.md` R46, R47): all 128 bits of `v[VD]`
are the four lane sums of the operands as they were in `s`, `pc` is 4 higher, and nothing else changed. -/
structure AddEffect (vd va vb : RegNo) (s t : State) : Prop where
  result : t.readV vd =
    lanes (laneAdd (lane (s.readV va) 0) (lane (s.readV vb) 0) s.nj)
      (laneAdd (lane (s.readV va) 1) (lane (s.readV vb) 1) s.nj)
      (laneAdd (lane (s.readV va) 2) (lane (s.readV vb) 2) s.nj)
      (laneAdd (lane (s.readV va) 3) (lane (s.readV vb) 3) s.nj)
  others : ∀ r, r ≠ vd → t.readV r = s.readV r
  pc : t.pc = (s.pc + 4) % 2 ^ s.pcBits
  nj : t.nj = s.nj
  sat : t.sat = s.sat
  run : s.SameRun t

/-- The register value with lane `k` replaced. -/
def setLane (x : VReg) (k : Fin 4) (l : Lane) : VReg :=
  lanes (if k = 0 then l else lane x 0) (if k = 1 then l else lane x 1)
    (if k = 2 then l else lane x 2) (if k = 3 then l else lane x 3)

/-- One lane of the addition done on its own: lane `k` of both operands is read now and lane `k` of `v[VD]` is written
(`40_vector_float_add.md` R48, a model that computes and writes lane by lane). -/
def State.addOneLane (vd va vb : RegNo) (s : State) (k : Fin 4) : State :=
  s.writeV vd (setLane (s.readV vd) k (laneAdd (lane (s.readV va) k) (lane (s.readV vb) k) s.nj))

/-- The two states agree on everything that `vaddfp` may read or write except SAT: `v0` to `v31`, NJ, `pc` and the run's
parameters (`10_state.md` R11). -/
def State.AgreeLow (s t : State) : Prop :=
  (∀ r : RegNo, r.toNat < 32 → t.readV r = s.readV r) ∧ t.nj = s.nj ∧ t.pc = s.pc ∧ s.SameRun t

/-- The value of source bit `n` of a word: bit 0 is the most significant (`00_scope.md` R6). -/
def sourceBit (w : Word) (n : Nat) : Bool :=
  w.getLsbD (31 - n)

end Sys2Proof.Machine
end

