-- ==== Sys2Proof/Certificates/Slice0/Obligations.lean ====
section
/-!
DEFINITION. The statements about the machine, for the provers. A docstring names the rule or section it formalises, and the
decisions of `92_eei_decisions.md` or log entries it rests on.
-/

open Sys2Proof Sys2Proof.Machine

/-! ### Encoding -/

/-- A few words of `95_test_vectors.md` section 2, of both forms, accepted and rejected. -/
def Obligations.SampleWordsDecode : Prop :=
  decodeWord 0x1063200A = .ok (.vaddfp 3 3 4) ∧
  decodeWord 0x13FFF80A = .ok (.vaddfp 31 31 31) ∧
  decodeWord 0x14011018 = .ok (.vaddfp128 64 1 2) ∧
  decodeWord 0x148D6C1D = .ok (.vaddfp128 100 77 45) ∧
  decodeWord 0x1000040A = .error .otherExtendedOpcode ∧
  decodeWord 0x14000000 = .error .otherFixedBits ∧
  decodeWord 0x18000010 = .error .otherPrimaryOpcode

/-- Encoding then decoding is the identity on every well-formed instruction (`30_encoding.md` section 9). -/
def Obligations.DecodeOfEncode : Prop :=
  ∀ i : Instr, i.WellFormed → decodeWord (encode i) = .ok i

/-- Decoding then encoding is the identity on every word that decodes, and what decodes is well-formed
(`30_encoding.md` section 9). -/
def Obligations.EncodeOfDecode : Prop :=
  ∀ (w : Word) (i : Instr), decodeWord w = .ok i → i.WellFormed ∧ encode i = w

/-- The two formulas of the encoding procedure, on every operand the encoding admits (`30_encoding.md` section 9). -/
def Obligations.EncoderFormulas : Prop :=
  (∀ d a b : RegNo, fitsVx d = true → fitsVx a = true → fitsVx b = true →
    (encode (.vaddfp d a b)).toNat =
      0x1000000A ||| (d.toNat <<< 21) ||| (a.toNat <<< 16) ||| (b.toNat <<< 11)) ∧
  (∀ d a b : RegNo,
    (encode (.vaddfp128 d a b)).toNat =
      0x14000010 ||| ((d.toNat &&& 31) <<< 21) ||| ((a.toNat &&& 31) <<< 16) ||| ((b.toNat &&& 31) <<< 11)
        ||| (((a.toNat >>> 6) &&& 1) <<< 10) ||| (((a.toNat >>> 5) &&& 1) <<< 5)
        ||| (((d.toNat >>> 5) &&& 3) <<< 2) ||| ((b.toNat >>> 5) &&& 3))

/-- R31: the fields of form VX, each an index of the register file. -/
def Obligations.VxFieldsAreRegisterIndices : Prop :=
  (∀ (w : Word) (d a b : RegNo), decodeWord w = .ok (.vaddfp d a b) ↔
    w.toNat / 2 ^ 26 = 4 ∧ d.toNat = w.toNat / 2 ^ 21 % 2 ^ 5 ∧ a.toNat = w.toNat / 2 ^ 16 % 2 ^ 5 ∧
      b.toNat = w.toNat / 2 ^ 11 % 2 ^ 5 ∧ w.toNat % 2 ^ 11 = 10) ∧
  (∀ (s : State) (r : RegNo), s.v[r.toNat]? = some (s.readV r))

/-- The register numbers of form VX128, as numbers and bit by bit (`30_encoding.md` section 4; the order of the pieces is read
from their names there, log entry 19). -/
def Obligations.Vx128RegisterNumbers : Prop :=
  ∀ (w : Word) (d a b : RegNo), decodeWord w = .ok (.vaddfp128 d a b) →
    d.toNat = (w.toNat / 2 ^ 2 % 2 ^ 2) * 2 ^ 5 + w.toNat / 2 ^ 21 % 2 ^ 5 ∧
    a.toNat = (w.toNat / 2 ^ 10 % 2) * 2 ^ 6 + (w.toNat / 2 ^ 5 % 2) * 2 ^ 5 + w.toNat / 2 ^ 16 % 2 ^ 5 ∧
    b.toNat = (w.toNat % 2 ^ 2) * 2 ^ 5 + w.toNat / 2 ^ 11 % 2 ^ 5 ∧
    d.getLsbD 6 = sourceBit w 28 ∧ d.getLsbD 5 = sourceBit w 29 ∧
    a.getLsbD 6 = sourceBit w 21 ∧ a.getLsbD 5 = sourceBit w 26 ∧
    b.getLsbD 6 = sourceBit w 30 ∧ b.getLsbD 5 = sourceBit w 31

/-- The decoder accepts exactly the words of the two patterns, and rejects every other word (`30_encoding.md` section 5;
the second mask is decision D7, log entry 14). -/
def Obligations.DecodesExactlyThePatterns : Prop :=
  ∀ w : Word,
    ((∃ d a b, decodeWord w = .ok (.vaddfp d a b)) ↔ w &&& 0xFC0007FF#32 = 0x1000000A#32) ∧
    ((∃ d a b, decodeWord w = .ok (.vaddfp128 d a b)) ↔ w &&& 0xFC0003D0#32 = 0x14000010#32) ∧
    ((∃ e, decodeWord w = .error e) ↔
      w &&& 0xFC0007FF#32 ≠ 0x1000000A#32 ∧ w &&& 0xFC0003D0#32 ≠ 0x14000010#32)

/-- For the decoder on bytes an instruction is four consecutive bytes, whatever follows them; there is no shorter and no longer
one (`30_encoding.md` section 1). That decoder, which no step calls, and its name `truncated` for fewer bytes are the model's
(log entry 17). -/
def Obligations.InstructionIsFourBytes : Prop :=
  (∀ (bs rest : List Byte) (i : Instr), decode bs = .ok (i, rest) →
    ∃ four, four.length = 4 ∧ bs = four ++ rest ∧ ∀ rest', decode (four ++ rest') = .ok (i, rest')) ∧
  (∀ bs : List Byte, bs.length < 4 → decode bs = .error .truncated) ∧
  (∀ i : Instr, (encodeBytes i).length = 4)

/-- The VX word and the VX128 word of the same register numbers below 32 both decode and have the same effect on every
state (`30_encoding.md` section 7). -/
def Obligations.TwoEncodingsOneOperation : Prop :=
  ∀ d a b : RegNo, fitsVx d = true → fitsVx a = true → fitsVx b = true →
    let vx := 0x1000000A ||| (d.toNat <<< 21) ||| (a.toNat <<< 16) ||| (b.toNat <<< 11)
    let vx128 := 0x14000010 ||| (d.toNat <<< 21) ||| (a.toNat <<< 16) ||| (b.toNat <<< 11)
    ∃ i j, decodeTableWord 32 vx = some i ∧ decodeTableWord 32 vx128 = some j ∧ ∀ s, exec i s = exec j s

/-! ### The two instructions -/

/-- R46: encoding, effect and example of `vaddfp`. The effect holds under the launch premise `VMX_ENABLED` (log entry 9).
`LaneAdd` is that of R45, and the modulo in `pc + 4` is log entry 1. -/
def Obligations.VaddfpRule : Prop :=
  (∀ w : Word, w &&& 0xFC0007FF#32 = 0x1000000A#32 → ∃ d a b, decodeWord w = .ok (.vaddfp d a b) ∧
    d.toNat = w.toNat / 2 ^ 21 % 2 ^ 5 ∧ a.toNat = w.toNat / 2 ^ 16 % 2 ^ 5 ∧ b.toNat = w.toNat / 2 ^ 11 % 2 ^ 5) ∧
  (∀ (d a b : RegNo) (s : State), s.vmxEnabled = true → ∃ t, exec (.vaddfp d a b) s = .next t ∧ AddEffect d a b s t) ∧
  decodeWord 0x1063200A = .ok (.vaddfp 3 3 4) ∧
  (∀ s : State, s.vmxEnabled = true → s.nj = true →
    s.readV 3 = lanes 0x3F800000 0x40000000 0x40400000 0x40800000 →
    s.readV 4 = lanes 0x3F000000 0xC0000000 0x7F800000 0x000116C2 →
    ∃ t, exec (.vaddfp 3 3 4) s = .next t ∧ t.readV 3 = lanes 0x3FC00000 0x00000000 0x7F800000 0x40800000 ∧
      t.readV 4 = s.readV 4 ∧ t.pc = (s.pc + 4) % 2 ^ s.pcBits)

/-- Encoding, effect and example of `vaddfp128`, and its agreement with `vaddfp` (`40_vector_float_add.md` section 4). That no
other word is `vaddfp128` is decision D7 (log entry 14), and the register numbers are read from the names of their pieces
(log entry 19). The effect holds under the launch premise `VMX_ENABLED` (log entry 9). `LaneAdd` is that of R45, and the
modulo in `pc + 4` is log entry 1. -/
def Obligations.Vaddfp128Rule : Prop :=
  (∀ w : Word, w &&& 0xFC0003D0#32 = 0x14000010#32 → ∃ d a b, decodeWord w = .ok (.vaddfp128 d a b) ∧
    d.toNat = (w.toNat / 2 ^ 2 % 2 ^ 2) * 2 ^ 5 + w.toNat / 2 ^ 21 % 2 ^ 5 ∧
    a.toNat = (w.toNat / 2 ^ 10 % 2) * 2 ^ 6 + (w.toNat / 2 ^ 5 % 2) * 2 ^ 5 + w.toNat / 2 ^ 16 % 2 ^ 5 ∧
    b.toNat = (w.toNat % 2 ^ 2) * 2 ^ 5 + w.toNat / 2 ^ 11 % 2 ^ 5) ∧
  (∀ w : Word, w &&& 0xFC0003D0#32 ≠ 0x14000010#32 → ∀ d a b, decodeWord w ≠ .ok (.vaddfp128 d a b)) ∧
  (∀ (d a b : RegNo) (s : State), s.vmxEnabled = true →
    ∃ t, exec (.vaddfp128 d a b) s = .next t ∧ AddEffect d a b s t) ∧
  (∀ (d a b : RegNo) (s : State), fitsVx d = true → fitsVx a = true → fitsVx b = true →
    exec (.vaddfp128 d a b) s = exec (.vaddfp d a b) s) ∧
  decodeWord 0x14011018 = .ok (.vaddfp128 64 1 2) ∧
  (∀ s : State, s.vmxEnabled = true → s.nj = true →
    s.readV 1 = lanes 0x3F800000 0x40000000 0x40400000 0x40800000 →
    s.readV 2 = lanes 0x41200000 0x41A00000 0x41F00000 0x42200000 →
    ∃ t, exec (.vaddfp128 64 1 2) s = .next t ∧ t.readV 64 = lanes 0x41300000 0x41B00000 0x42040000 0x42300000 ∧
      t.pc = (s.pc + 4) % 2 ^ s.pcBits)

/-- The frame of both instructions, `vaddfp` and `vaddfp128`: where one answers a next state, every register but VD, both
fields of VSCR, every byte of memory and the run's parameters are as before (`40_vector_float_add.md` section 4,
`20_memory.md` section 3). -/
def Obligations.FloatAddFrame : Prop :=
  ∀ (i : Instr) (s t : State), exec i s = .next t →
    (∀ r, r ≠ i.dest → t.readV r = s.readV r) ∧ t.nj = s.nj ∧ t.sat = s.sat ∧
      (∀ a, t.readByte a = s.readByte a) ∧ s.SameRun t

/-- R60: neither instruction raises an exception, for any operand values and any state; each completes where the launch
premise `VMX_ENABLED` holds, and where it does not there is no step and still no exception. -/
def Obligations.NoSynchronousException : Prop :=
  ∀ (i : Instr) (s : State), (∀ f, exec i s ≠ .fault f) ∧ (s.vmxEnabled = true → ∃ t, exec i s = .next t)

/-- Where the launch premise `VMX_ENABLED` does not hold, each instruction is refused by name and no step of the machine
answers a next state (`60_exceptions.md` section 1, decision D15, log entry 9). -/
def Obligations.VectorUnitDisabledRefused : Prop :=
  ∀ s : State, s.vmxEnabled = false →
    (∀ i, exec i s = .refused .vmxNotEnabled) ∧ ∀ t, step s ≠ .next t

/-- R51: both instructions go to the next sequential instruction, and an aligned `pc` stays aligned (the modulo is log entry
1). -/
def Obligations.PcGoesToNextInstruction : Prop :=
  ∀ (i : Instr) (s : State), s.vmxEnabled = true →
    ∃ t, exec i s = .next t ∧ t.pc = (s.pc + 4) % 2 ^ s.pcBits ∧ (4 ∣ s.pc → 4 ∣ t.pc)

/-- R48: lane i of the result depends on lane i of the operands and on NJ alone; the operands are the old values whatever
registers coincide; lane by lane in any order gives the same final state. -/
def Obligations.LaneIndependenceAndAliasing : Prop :=
  (∀ (i : Instr) (s s' t t' : State) (k : Fin 4), exec i s = .next t → exec i s' = .next t' → s.nj = s'.nj →
    lane (s.readV i.srcA) k = lane (s'.readV i.srcA) k → lane (s.readV i.srcB) k = lane (s'.readV i.srcB) k →
    lane (t.readV i.dest) k = lane (t'.readV i.dest) k) ∧
  (∀ (i : Instr) (s : State), s.vmxEnabled = true → ∃ t, exec i s = .next t ∧
    ∀ k, lane (t.readV i.dest) k = laneAdd (lane (s.readV i.srcA) k) (lane (s.readV i.srcB) k) s.nj) ∧
  (∀ (i : Instr) (s t : State) (order : List (Fin 4)), order.Perm [0, 1, 2, 3] → exec i s = .next t →
    t = (order.foldl (State.addOneLane i.dest i.srcA i.srcB) s).advancePc)

/-- The form VX stays in `v0` to `v31`: a step at a `vaddfp` word leaves `v32` to `v127` alone, and what it leaves in `v0`
to `v31` does not depend on them nor on SAT (`10_state.md` section 2; its count of registers is derived in the spec). -/
def Obligations.VxStaysInLowRegisters : Prop :=
  ∀ (s t : State) (d a b : RegNo), s.At (.vaddfp d a b) → step s = .next t →
    (∀ r : RegNo, 32 ≤ r.toNat → t.readV r = s.readV r) ∧
    ∀ s', s.AgreeLow s' → ∃ t', step s' = .next t' ∧ t.AgreeLow t'

/-! ### Views of a register and memory -/

/-- The lane view, the byte view, their relation, and the memory image of a register (`10_state.md` section 2). The image
is stated where the sixteen addresses differ. -/
def Obligations.RegisterViews : Prop :=
  (∀ (x : VReg) (i : Fin 4), (lane x i).toNat = x.toNat / 2 ^ (96 - 32 * i.val) % 2 ^ 32) ∧
  (∀ (x : VReg) (k : Fin 16), (byteOf x k).toNat = x.toNat / 2 ^ (120 - 8 * k.val) % 2 ^ 8) ∧
  (∀ x : VReg, lane x 0 = wordOfBytes (byteOf x 0) (byteOf x 1) (byteOf x 2) (byteOf x 3) ∧
    lane x 1 = wordOfBytes (byteOf x 4) (byteOf x 5) (byteOf x 6) (byteOf x 7) ∧
    lane x 2 = wordOfBytes (byteOf x 8) (byteOf x 9) (byteOf x 10) (byteOf x 11) ∧
    lane x 3 = wordOfBytes (byteOf x 12) (byteOf x 13) (byteOf x 14) (byteOf x 15)) ∧
  (∀ (s : State) (ea : Nat) (x : VReg) (k : Fin 16), 4 ≤ s.pcBits →
    (s.memWrite ea 16 x).readByte (s.addrAdd ea k.val) = some (byteOf x k))

/-- Two memories in canonical form that read the same everywhere are the same data. -/
def Obligations.CanonicalMemoryUnique : Prop :=
  ∀ m m' : Memory, Memory.wf m → Memory.wf m' → (∀ a, Memory.read m a = Memory.read m' a) → m = m'

/-- A fetch succeeds exactly if `pc` is a multiple of 4 and its four bytes are in `IMEM`, and yields the big-endian word
(`20_memory.md` sections 2 and 3; decisions D3, D4, D5, log entries 15 and 16). -/
def Obligations.FetchIsBigEndianWord : Prop :=
  ∀ (s : State) (w : Word), s.fetch = .ok w ↔
    s.pc % 4 = 0 ∧ ∃ b0 b1 b2 b3, s.readByte (s.addrAdd s.pc 0) = some b0 ∧ s.readByte (s.addrAdd s.pc 1) = some b1 ∧
      s.readByte (s.addrAdd s.pc 2) = some b2 ∧ s.readByte (s.addrAdd s.pc 3) = some b3 ∧
      w.toNat = b0.toNat * 2 ^ 24 + b1.toNat * 2 ^ 16 + b2.toNat * 2 ^ 8 + b3.toNat

/-! ### The step and the run -/

/-- A step runs the decoded instruction: at a state that is not final, whose fetched word decodes to `i`, the step is the
instruction's effect and nothing more (`70_reset_and_hazards.md` section 2). -/
def Obligations.StepRunsDecoded : Prop :=
  ∀ (s : State) (i : Instr), ¬s.Final → s.At i → step s = exec i s

/-- What a step does in every other situation (`70_reset_and_hazards.md` section 2, `60_exceptions.md` section 1; the names
and the order of the refusals are the model's, log entries 16, 17 and 24). -/
def Obligations.StepWithoutInstruction : Prop :=
  ∀ s : State,
    (s.Final ↔ step s = .fault .runOver) ∧
    (¬s.Final → s.pc % 4 ≠ 0 → step s = .refused .fetchMisaligned) ∧
    (¬s.Final → s.pc % 4 = 0 → (∃ k, k < 4 ∧ s.readByte (s.addrAdd s.pc k) = none) →
      step s = .refused .fetchOutsideImem) ∧
    (∀ w e, ¬s.Final → s.fetch = .ok w → decodeWord w = .error e → step s = .refused .notSpecified)

/-- Every step keeps a legal state legal: `pc` an address and a multiple of 4, `IMEM` a canonical map of addresses
(`10_state.md` section 4, `20_memory.md` section 1; that the width is at least 2 is log entry 2). -/
def Obligations.StepKeepsInv : Prop :=
  ∀ s t : State, s.Inv → step s = .next t → t.Inv

/-- The state after reset and every legal launch state are legal (`70_reset_and_hazards.md` section 1). The reset values
besides NJ are the model's: log entries 1, 3, 6 and 7. -/
def Obligations.ResetAndLaunchInv : Prop :=
  State.reset.Inv ∧ ∀ l : Launch, l.Legal → (State.launch l).Inv

/-- After reset VSCR.NJ is 1 (`10_state.md` section 6), and so it stays in every run that starts with it set and is
`Undisturbed` (`70_reset_and_hazards.md` section 1, premise 5; decision D16, log entry 20). -/
def Obligations.NjSetAfterReset : Prop :=
  State.reset.nj = true ∧
    ∀ tr, Undisturbed tr → (tr 0).nj = true → ∀ n, Reached tr n → (tr n).nj = true

/-- No step changes a field of VSCR or a parameter of the run, `IMEM` among them, and so no `Undisturbed` run of any length
does (`10_state.md` sections 1 and 3, `20_memory.md` section 5, `40_vector_float_add.md` section 6; premise 5 of
`70_reset_and_hazards.md` section 1, decision D16, log entry 20). -/
def Obligations.RunKeepsVscrAndParameters : Prop :=
  (∀ s t : State, step s = .next t → t.nj = s.nj ∧ t.sat = s.sat ∧ s.SameRun t) ∧
  ∀ tr, Undisturbed tr → ∀ n, Reached tr n →
    (tr n).nj = (tr 0).nj ∧ (tr n).sat = (tr 0).sat ∧ (tr 0).SameRun (tr n)

/-- An `Undisturbed` run with a marked end comes, within `2 ^ (PC_BITS - 2)` states, to a final state or to one that is refused
(`70_reset_and_hazards.md` section 2, decision D19, log entry 6; premise 5 of its section 1, decision D16, log entry 20). -/
def Obligations.RunEndsOrIsRefused : Prop :=
  ∀ tr, Undisturbed tr → (tr 0).Inv → (tr 0).haltPc ≠ none →
    (∃ n, n < 2 ^ (tr 0).pcBits / 4 ∧ Reached tr n ∧ ((tr n).Final ∨ ∃ r, step (tr n) = .refused r)) ∧
    ∀ t, Sys2Proof.core.run (2 ^ ((tr 0).pcBits - 2)) (tr 0) ≠ .next t

/-- `k` instructions in a row, ended at `pc + 4 k`, run `Undisturbed` in exactly `k` steps to a final state
(`70_reset_and_hazards.md` section 2, decision D19, log entry 6; premises 4 and 5 of its section 1, log entries 9 and 20).
Stated for `4 k` below the size of the address space, where the end is not met before. -/
def Obligations.StraightLineRunsToItsEnd : Prop :=
  ∀ (tr : Nat → State) (k : Nat), Undisturbed tr → (tr 0).Inv → (tr 0).vmxEnabled = true → 4 * k < 2 ^ (tr 0).pcBits →
    (tr 0).haltPc = some ((tr 0).addrAdd (tr 0).pc (4 * k)) →
    (∀ j, j < k → ∃ w i, (tr 0).memRead ((tr 0).addrAdd (tr 0).pc (4 * j)) 4 = some w ∧ decodeWord w = .ok i) →
    (∀ j, j < k → ¬(tr j).Final) ∧ (tr k).Final ∧ Sys2Proof.core.run k (tr 0) = .next (tr k)

/-- An `Undisturbed` run from a legal state goes word by word. The machine runs n steps to `t` exactly if `t` is the state before
the n-th instruction and each of the n addresses from the first `pc` on, 4 apart, is not the end and holds, in the memory of the
start, a word that decodes. Each such word has its whole effect before the next is fetched: it adds, in the state the word
before it left, and leaves the state the word after it finds (`70_reset_and_hazards.md` sections 1 to 3, `20_memory.md` section
3, `40_vector_float_add.md` section 4; premises 4 and 5, decisions D3 to D6, D15, D16, D19 and D21, log entries 1, 2, 6, 9, 15, 16,
17, 20 and 23). -/
def Obligations.UndisturbedRunIsTheMachines : Prop :=
  ∀ tr, Undisturbed tr → (tr 0).Inv → ∀ n,
    (∀ t, Sys2Proof.core.run n (tr 0) = .next t ↔
      tr n = t ∧ ∀ j, j < n → (tr 0).vmxEnabled = true ∧ (tr 0).haltPc ≠ some ((tr 0).addrAdd (tr 0).pc (4 * j)) ∧
        ∃ w i, (tr 0).memRead ((tr 0).addrAdd (tr 0).pc (4 * j)) 4 = some w ∧ decodeWord w = .ok i) ∧
    ∀ w i, Reached tr (n + 1) → (tr 0).memRead ((tr 0).addrAdd (tr 0).pc (4 * n)) 4 = some w → decodeWord w = .ok i →
      AddEffect i.dest i.srcA i.srcB (tr n) (tr (n + 1))

/-- What the launch premises, by name in `RunPremises`, give of every instruction a run comes to: the state is legal, `pc` is 4
higher for every instruction before it, VSCR and the parameters are as the launch chose them, and the only refusals left are
a fetch outside `IMEM` and a word that is not specified (`70_reset_and_hazards.md` sections 1 and 2; decisions D15, D16, D19,
D20, log entries 1, 2, 9, 16, 17 and 20). Nothing is assumed of the registers or of SAT. -/
def Obligations.RunUnderLaunchPremises : Prop :=
  ∀ (l : Launch) (tr : Nat → State), RunPremises l tr → ∀ n, Reached tr n →
    (tr n).Inv ∧ (tr n).pc = (l.entryPc + 4 * n) % 2 ^ l.pcBits ∧ (tr n).nj = l.nj ∧ (tr n).sat = l.sat ∧
      (State.launch l).SameRun (tr n) ∧
      ∀ r, step (tr n) = .refused r → r = .fetchOutsideImem ∨ r = .notSpecified

/-- The word of a well-formed instruction placed where the next step fetches is run by that step (the model's launch
operation, log entry 8; `70_reset_and_hazards.md` section 1). -/
def Obligations.PlacedWordRuns : Prop :=
  ∀ (s : State) (i : Instr), i.WellFormed → s.pc % 4 = 0 → 2 ≤ s.pcBits →
    step (s.withFetchWord 32 (encode i).toNat) = exec i (s.withFetchWord 32 (encode i).toNat) ∧
    (s.withFetchWord 32 (encode i).toNat).v = s.v ∧ (s.withFetchWord 32 (encode i).toNat).pc = s.pc

/-! ### The arithmetic of one lane -/

/-- The integer the model computes with is the lane's exact value times `2 ^ 149` (`40_vector_float_add.md` section 3; the
layout is general knowledge there, log entry 18). -/
def Obligations.ScaledValueExact : Prop :=
  ∀ x : Lane, isFinite x = true → (scaledVal x : ℚ) = laneVal x * 2 ^ 149

/-- The model's rounding on integers is `Round32` on rationals (`40_vector_float_add.md` section 3; ties to even are decision
D8, log entry 11, and the overflow result is log entry 18). -/
def Obligations.RoundingMatchesRationals : Prop :=
  ∀ n : ℤ, n ≠ 0 → round32 n = round32Q ((n : ℚ) / 2 ^ 149)

/-- The sum of two lanes, all its cases, with the exact sum and the rounding on rationals (`40_vector_float_add.md` section
3; decisions D8 and D10, log entries 10, 11 and 18). -/
def Obligations.SumMatchesRationals : Prop :=
  ∀ a b : Lane,
    (classOf a = .nan ∨ classOf b = .nan → fadd32 a b = nanResult a b ∧ classOf (fadd32 a b) = .nan) ∧
    (classOf a = .infinity → classOf b = .infinity →
      (a = b → fadd32 a b = a) ∧ (a ≠ b → fadd32 a b = nanResult a b ∧ classOf (fadd32 a b) = .nan)) ∧
    (classOf a = .infinity → isFinite b = true → fadd32 a b = a) ∧
    (isFinite a = true → classOf b = .infinity → fadd32 a b = b) ∧
    (classOf a = .zero → classOf b = .zero → (a = b → fadd32 a b = a) ∧ (a ≠ b → fadd32 a b = 0)) ∧
    (isFinite a = true → isFinite b = true → ¬(classOf a = .zero ∧ classOf b = .zero) →
      (laneVal a + laneVal b = 0 → fadd32 a b = 0) ∧
      (laneVal a + laneVal b ≠ 0 → fadd32 a b = round32Q (laneVal a + laneVal b)))

/-- The sum is correctly rounded: no finite lane is nearer to the exact sum, and where another value is as near the result
has the even fraction (`40_vector_float_add.md` section 3; ties to even are decision D8, log entry 11). -/
def Obligations.SumIsCorrectlyRounded : Prop :=
  ∀ a b : Lane, isFinite a = true → isFinite b = true → isFinite (fadd32 a b) = true →
    ∀ y : Lane, isFinite y = true →
      |laneVal (fadd32 a b) - (laneVal a + laneVal b)| ≤ |laneVal y - (laneVal a + laneVal b)| ∧
      (|laneVal (fadd32 a b) - (laneVal a + laneVal b)| = |laneVal y - (laneVal a + laneVal b)| →
        laneVal y ≠ laneVal (fadd32 a b) → fracOf (fadd32 a b) % 2 = 0)

/-- The sum of two finite lanes overflows to the infinity of its sign exactly from `2 ^ 128 - 2 ^ 103` on
(`40_vector_float_add.md` section 3; log entries 11 and 18). -/
def Obligations.OverflowExactlyFromThreshold : Prop :=
  ∀ a b : Lane, isFinite a = true → isFinite b = true →
    ((2 : ℚ) ^ 128 - 2 ^ 103 ≤ laneVal a + laneVal b ↔ fadd32 a b = infinityLane false) ∧
    (laneVal a + laneVal b ≤ -((2 : ℚ) ^ 128 - 2 ^ 103) ↔ fadd32 a b = infinityLane true)

/-- A denormal sum is always exact, so flushing the result has no before-rounding or after-rounding ambiguity
(`40_vector_float_add.md` section 3, derived there). -/
def Obligations.DenormalSumIsExact : Prop :=
  ∀ a b : Lane, isFinite a = true → isFinite b = true → classOf (fadd32 a b) = .denormal →
    laneVal (fadd32 a b) = laneVal a + laneVal b

/-- The flush replaces exactly the denormals, each by the zero of its sign (`40_vector_float_add.md` section 3; the sign is
decision D9, log entry 12). -/
def Obligations.FlushReplacesDenormals : Prop :=
  ∀ x : Lane, signOf (flushDenorm x) = signOf x ∧ flushDenorm (flushDenorm x) = flushDenorm x ∧
    (classOf x = .denormal → classOf (flushDenorm x) = .zero) ∧ (classOf x ≠ .denormal → flushDenorm x = x)

/-- NJ decides the flush and nothing else: set, the operands and the result of the sum are flushed; clear, none is; and where
no denormal appears the two agree (`40_vector_float_add.md` section 3; the branch for NJ clear is decision D11, log entry
13). -/
def Obligations.NjOnlyDecidesTheFlush : Prop :=
  (∀ a b : Lane, laneAdd a b true = flushDenorm (fadd32 (flushDenorm a) (flushDenorm b)) ∧ laneAdd a b false = fadd32 a b) ∧
  (∀ a b : Lane, classOf a ≠ .denormal → classOf b ≠ .denormal → classOf (fadd32 a b) ≠ .denormal →
    laneAdd a b true = laneAdd a b false) ∧
  (∀ a b : Lane, classOf a = .denormal → classOf b = .denormal →
    classOf (laneAdd a b true) = .zero ∧ laneVal (laneAdd a b false) = laneVal a + laneVal b)

/-- The result is a NaN exactly for a NaN operand and for infinities of opposite sign, and then it is the free NaN of the
arguments of the sum (`40_vector_float_add.md` sections 3 and 5; decision D10, log entry 10). Holds for every free value. The half for NJ
clear is decision D11 (log entry 13). -/
def Obligations.NanExactlyWhen : Prop :=
  ∀ (a b : Lane) (nj : Bool),
    (classOf (laneAdd a b nj) = .nan ↔
      classOf a = .nan ∨ classOf b = .nan ∨ (classOf a = .infinity ∧ classOf b = .infinity ∧ signOf a ≠ signOf b)) ∧
    (classOf (laneAdd a b nj) = .nan →
      laneAdd a b nj = if nj then nanResult (flushDenorm a) (flushDenorm b) else nanResult a b)

/-- With NJ set the result lane is never a denormal (`40_vector_float_add.md` sections 3 and 5, derived there). -/
def Obligations.ResultNeverDenormal : Prop :=
  ∀ a b : Lane, classOf (laneAdd a b true) ≠ .denormal

/-- The lane add commutes wherever its result is not a NaN (`40_vector_float_add.md` section 5, law a, for NJ set; the half for
NJ clear rests on its section 3 and decision D11, log entry 13). -/
def Obligations.LaneAddCommutes : Prop :=
  ∀ (a b : Lane) (nj : Bool), classOf (laneAdd a b nj) ≠ .nan → laneAdd a b nj = laneAdd b a nj

/-- Adding a zero only flushes, but -0 + +0 is +0 (`40_vector_float_add.md` section 5, laws b and c; decision D9, log entries
12 and 18). -/
def Obligations.AddingZeroOnlyFlushes : Prop :=
  ∀ x : Lane, classOf x ≠ .nan →
    laneAdd x 0x80000000 true = flushDenorm x ∧
    laneAdd x 0x00000000 true = if flushDenorm x = 0x80000000 then 0x00000000 else flushDenorm x

/-- A finite value plus its negation is +0 (`40_vector_float_add.md` section 5, law d; log entry 18). -/
def Obligations.NegationCancels : Prop :=
  ∀ x : Lane, isFinite x = true → laneAdd x (x ^^^ 0x80000000) true = 0x00000000

/-- A lane added to itself is doubled exactly (`40_vector_float_add.md` section 5, law e; decision D9, log entries 12 and
18). -/
def Obligations.DoublingIsExact : Prop :=
  ∀ x : Lane,
    (classOf x = .normal → expOf x ≤ 253 → laneAdd x x true = x + 0x00800000) ∧
    (classOf x = .normal → expOf x = 254 → laneAdd x x true = infinityLane (signOf x)) ∧
    (classOf x = .zero ∨ classOf x = .denormal → laneAdd x x true = flushDenorm x) ∧
    (classOf x = .infinity → laneAdd x x true = x)

/-- The lane add is not associative: the example of `40_vector_float_add.md` section 5, law g (decision D8, log entry 11). -/
def Obligations.LaneAddNotAssociative : Prop :=
  laneAdd (laneAdd 0x3F800000 0x33800000 true) 0x33800000 true = 0x3F800000 ∧
  laneAdd 0x3F800000 (laneAdd 0x33800000 0x33800000 true) true = 0x3F800001
end

