-- ==== Sys2Proof/Laws/Decode.lean ====
section
/-!
SUPPORT. What the decoder answers, said once: it answers an instruction exactly on the two patterns.
-/

namespace Sys2Proof

/-- The two patterns are disjoint: their primary opcodes differ (`30_encoding.md` R34). -/
theorem not_matches_both (w : Word) (h : matchesVaddfp w = true) : matchesVaddfp128 w = false := by
  rw [matchesVaddfp, beq_iff_eq] at h
  rw [matchesVaddfp128, beq_eq_false_iff_ne]
  intro g
  have h' := congrArg (·.getLsbD 26) h
  have g' := congrArg (·.getLsbD 26) g
  simp at h' g'
  simp [h'] at g'

theorem decodeWord_of_vaddfp {w : Word} (h : matchesVaddfp w = true) :
    decodeWord w = .ok (.vaddfp (regOfVx (fieldVxVd w)) (regOfVx (fieldVxVa w)) (regOfVx (fieldVxVb w))) := by
  rw [decodeWord, if_pos h]

theorem decodeWord_of_vaddfp128 {w : Word} (h : matchesVaddfp128 w = true) :
    decodeWord w = .ok (.vaddfp128 (fieldVd128 w) (fieldVa128 w) (fieldVb128 w)) := by
  have h' : ¬matchesVaddfp w = true := fun g => by simp [not_matches_both w g] at h
  rw [decodeWord, if_neg h', if_pos h]

/-- If the decoder answers an instruction, one of the two patterns matched and gave it. -/
theorem decodeWord_cases {w : Word} {i : Instr} (h : decodeWord w = .ok i) :
    (matchesVaddfp w = true ∧
      i = .vaddfp (regOfVx (fieldVxVd w)) (regOfVx (fieldVxVa w)) (regOfVx (fieldVxVb w))) ∨
    (matchesVaddfp128 w = true ∧ i = .vaddfp128 (fieldVd128 w) (fieldVa128 w) (fieldVb128 w)) := by
  unfold decodeWord at h
  split at h
  · exact .inl ⟨‹_›, (Except.ok.inj h).symm⟩
  split at h
  · exact .inr ⟨‹_›, (Except.ok.inj h).symm⟩
  · cases h

theorem fitsVx_regOfVx (f : BitVec 5) : fitsVx (regOfVx f) = true := by
  simp only [fitsVx, regOfVx, BitVec.toNat_setWidth, decide_eq_true_eq]
  have := f.isLt
  omega

/-- The word of four bytes, and the four bytes of a word. -/
theorem wordOfBytes_bytesOfWord (w : Word) :
    wordOfBytes (slice w 24 8) (slice w 16 8) (slice w 8 8) (slice w 0 8) = w := by
  apply BitVec.eq_of_getLsbD_eq
  intro j hj
  simp only [wordOfBytes, slice, BitVec.getLsbD_extractLsb', BitVec.getLsbD_append]
  simp
  grind

/-- Decoding a word laid out big-endian. -/
theorem decode_bytesOfWord (w : Word) (rest : List Byte) :
    decode (bytesOfWord w ++ rest) =
      match decodeWord w with
      | .ok i => .ok (i, rest)
      | .error e => .error e := by
  cases h : decodeWord w <;> simp [bytesOfWord, decode, wordOfBytes_bytesOfWord, h]

/-! ### The encoded words and the two patterns as numbers -/

theorem encodeVaddfp_toNat (d a b : RegNo) : (encodeVaddfp d a b).toNat =
    4 * 2 ^ 26 + d.toNat % 2 ^ 5 * 2 ^ 21 + a.toNat % 2 ^ 5 * 2 ^ 16 + b.toNat % 2 ^ 5 * 2 ^ 11 + 10 := by
  simp only [encodeVaddfp, append_toNat, slice_toNat]
  simp; ring

theorem encodeVaddfp128_toNat (d a b : RegNo) : (encodeVaddfp128 d a b).toNat =
    5 * 2 ^ 26 + d.toNat % 2 ^ 5 * 2 ^ 21 + a.toNat % 2 ^ 5 * 2 ^ 16 + b.toNat % 2 ^ 5 * 2 ^ 11 + a.toNat / 2 ^ 6 % 2 * 2 ^ 10 + a.toNat / 2 ^ 5 % 2 * 2 ^ 5
     + 2 ^ 4 + d.toNat / 2 ^ 5 % 2 ^ 2 * 2 ^ 2 + b.toNat / 2 ^ 5 % 2 ^ 2 := by
  simp only [encodeVaddfp128, append_toNat, slice_toNat]
  simp; ring

theorem matchesVaddfp_iff (w : Word) : matchesVaddfp w = true ↔ w.toNat / 2 ^ 26 = 4 ∧ w.toNat % 2 ^ 11 = 10 := by
  have h1 : w.toNat / 2 ^ 26 = 4 ↔ slice w 26 6 = 4#6 := by
    rw [← BitVec.toNat_inj, slice_toNat]; have := w.isLt; simp; omega
  have h2 : w.toNat % 2 ^ 11 = 10 ↔ slice w 0 11 = 10#11 := by
    rw [← BitVec.toNat_inj, slice_toNat]; simp
  rw [h1, h2, matchesVaddfp, beq_iff_eq]
  constructor
  · intro h
    constructor
    · apply BitVec.eq_of_getLsbD_eq; intro j hj
      have := congrArg (·.getLsbD (26 + j)) h
      simp only [slice, BitVec.getLsbD_extractLsb', BitVec.getLsbD_and] at this ⊢
      interval_cases j <;> simpa using this
    · apply BitVec.eq_of_getLsbD_eq; intro j hj
      have := congrArg (·.getLsbD j) h
      simp only [slice, BitVec.getLsbD_extractLsb', BitVec.getLsbD_and] at this ⊢
      interval_cases j <;> simpa using this
  · rintro ⟨h, g⟩
    apply BitVec.eq_of_getLsbD_eq; intro j hj
    rw [BitVec.getLsbD_and]
    rcases Nat.lt_or_ge j 11 with hj' | hj'
    · have := congrArg (·.getLsbD j) g
      simp only [slice, BitVec.getLsbD_extractLsb'] at this
      interval_cases j <;> simpa using this
    rcases Nat.lt_or_ge j 26 with hj2 | hj2
    · interval_cases j <;> simp
    · have := congrArg (·.getLsbD (j - 26)) h
      simp only [slice, BitVec.getLsbD_extractLsb'] at this
      interval_cases j <;> simpa using this

theorem matchesVaddfp128_iff (w : Word) : matchesVaddfp128 w = true ↔
    w.toNat / 2 ^ 26 = 5 ∧ w.toNat / 2 ^ 6 % 2 ^ 4 = 0 ∧ w.toNat / 2 ^ 4 % 2 = 1 := by
  have h1 : w.toNat / 2 ^ 26 = 5 ↔ slice w 26 6 = 5#6 := by
    rw [← BitVec.toNat_inj, slice_toNat]; have := w.isLt; simp; omega
  have h2 : w.toNat / 2 ^ 6 % 2 ^ 4 = 0 ↔ slice w 6 4 = 0#4 := by
    rw [← BitVec.toNat_inj, slice_toNat]; simp
  have h3 : w.toNat / 2 ^ 4 % 2 = 1 ↔ slice w 4 1 = 1#1 := by
    rw [← BitVec.toNat_inj, slice_toNat]; simp
  rw [h1, h2, h3, matchesVaddfp128, beq_iff_eq]
  constructor
  · intro h
    refine ⟨?_, ?_, ?_⟩
    · apply BitVec.eq_of_getLsbD_eq; intro j hj
      have := congrArg (·.getLsbD (26 + j)) h
      simp only [slice, BitVec.getLsbD_extractLsb', BitVec.getLsbD_and] at this ⊢
      interval_cases j <;> simpa using this
    · apply BitVec.eq_of_getLsbD_eq; intro j hj
      have := congrArg (·.getLsbD (6 + j)) h
      simp only [slice, BitVec.getLsbD_extractLsb', BitVec.getLsbD_and] at this ⊢
      interval_cases j <;> simpa using this
    · apply BitVec.eq_of_getLsbD_eq; intro j hj
      have := congrArg (·.getLsbD (4 + j)) h
      simp only [slice, BitVec.getLsbD_extractLsb', BitVec.getLsbD_and] at this ⊢
      interval_cases j; simpa using this
  · rintro ⟨h, g, k⟩
    apply BitVec.eq_of_getLsbD_eq; intro j hj
    rw [BitVec.getLsbD_and]
    have h := congrArg (·.getLsbD (j - 26)) h
    have g := congrArg (·.getLsbD (j - 6)) g
    have k := congrArg (·.getLsbD (j - 4)) k
    simp only [slice, BitVec.getLsbD_extractLsb'] at h g k
    interval_cases j <;> first | (simp; done) | simpa using h | simpa using g | simpa using k

end Sys2Proof
end

