-- ==== Sys2Proof/Laws/State.lean ====
section
/-!
SUPPORT. The small lemmas of State: one per field per update, and what a register reads after a write.
-/

namespace Sys2Proof.Machine

/-! ### `writeV` -/

@[simp] theorem State.writeV_nj (s : State) (r : RegNo) (x : VReg) : (s.writeV r x).nj = s.nj := rfl
@[simp] theorem State.writeV_sat (s : State) (r : RegNo) (x : VReg) : (s.writeV r x).sat = s.sat := rfl
@[simp] theorem State.writeV_pc (s : State) (r : RegNo) (x : VReg) : (s.writeV r x).pc = s.pc := rfl
@[simp] theorem State.writeV_pcBits (s : State) (r : RegNo) (x : VReg) : (s.writeV r x).pcBits = s.pcBits := rfl
@[simp] theorem State.writeV_imem (s : State) (r : RegNo) (x : VReg) : (s.writeV r x).imem = s.imem := rfl
@[simp] theorem State.writeV_haltPc (s : State) (r : RegNo) (x : VReg) : (s.writeV r x).haltPc = s.haltPc := rfl
@[simp] theorem State.writeV_vmxEnabled (s : State) (r : RegNo) (x : VReg) :
    (s.writeV r x).vmxEnabled = s.vmxEnabled := rfl
@[simp] theorem State.writeV_addrAdd (s : State) (r : RegNo) (x : VReg) (a k : Nat) :
    (s.writeV r x).addrAdd a k = s.addrAdd a k := rfl

theorem regIndex_inj {r q : RegNo} : regIndex r = regIndex q ↔ r = q :=
  ⟨fun h => BitVec.eq_of_toNat_eq (congrArg Fin.val h), fun h => h ▸ rfl⟩

theorem regIndex_val_inj {r q : RegNo} : (regIndex r).val = (regIndex q).val ↔ r = q :=
  Fin.val_inj.trans regIndex_inj

@[simp] theorem State.readV_writeV_same (s : State) (r : RegNo) (x : VReg) : (s.writeV r x).readV r = x := by
  simp [State.readV, State.writeV, Vector.get_eq_getElem]

@[simp] theorem State.readV_writeV_ne (s : State) {r q : RegNo} (x : VReg) (h : q ≠ r) :
    (s.writeV r x).readV q = s.readV q := by
  simp only [State.readV, State.writeV, Vector.get_eq_getElem]
  exact Vector.getElem_set_ne _ _ fun e => h (regIndex_val_inj.mp e).symm

/-! ### `advancePc` -/

@[simp] theorem State.advancePc_v (s : State) : s.advancePc.v = s.v := rfl
@[simp] theorem State.advancePc_nj (s : State) : s.advancePc.nj = s.nj := rfl
@[simp] theorem State.advancePc_sat (s : State) : s.advancePc.sat = s.sat := rfl
@[simp] theorem State.advancePc_pc (s : State) : s.advancePc.pc = s.addrAdd s.pc 4 := rfl
@[simp] theorem State.advancePc_pcBits (s : State) : s.advancePc.pcBits = s.pcBits := rfl
@[simp] theorem State.advancePc_imem (s : State) : s.advancePc.imem = s.imem := rfl
@[simp] theorem State.advancePc_haltPc (s : State) : s.advancePc.haltPc = s.haltPc := rfl
@[simp] theorem State.advancePc_vmxEnabled (s : State) : s.advancePc.vmxEnabled = s.vmxEnabled := rfl
@[simp] theorem State.advancePc_readV (s : State) (r : RegNo) : s.advancePc.readV r = s.readV r := rfl

/-! ### `writeByte` and `memWrite` -/

@[simp] theorem State.writeByte_v (s : State) (a : Nat) (b : Byte) : (s.writeByte a b).v = s.v := rfl
@[simp] theorem State.writeByte_nj (s : State) (a : Nat) (b : Byte) : (s.writeByte a b).nj = s.nj := rfl
@[simp] theorem State.writeByte_sat (s : State) (a : Nat) (b : Byte) : (s.writeByte a b).sat = s.sat := rfl
@[simp] theorem State.writeByte_pc (s : State) (a : Nat) (b : Byte) : (s.writeByte a b).pc = s.pc := rfl
@[simp] theorem State.writeByte_pcBits (s : State) (a : Nat) (b : Byte) : (s.writeByte a b).pcBits = s.pcBits := rfl
@[simp] theorem State.writeByte_imem (s : State) (a : Nat) (b : Byte) :
    (s.writeByte a b).imem = Memory.write s.imem a b := rfl
@[simp] theorem State.writeByte_haltPc (s : State) (a : Nat) (b : Byte) : (s.writeByte a b).haltPc = s.haltPc := rfl
@[simp] theorem State.writeByte_vmxEnabled (s : State) (a : Nat) (b : Byte) :
    (s.writeByte a b).vmxEnabled = s.vmxEnabled := rfl

/-- A memory write changes `IMEM` and nothing else. -/
theorem State.memWrite_eq (s : State) (a n : Nat) (x : BitVec (8 * n)) :
    s.memWrite a n x = { s with imem := (s.memWrite a n x).imem } := by
  induction n with
  | zero => rfl
  | succ n ih => rw [State.memWrite, ih]; rfl

@[simp] theorem State.memWrite_v (s : State) (a n : Nat) (x : BitVec (8 * n)) : (s.memWrite a n x).v = s.v := by
  rw [State.memWrite_eq]
@[simp] theorem State.memWrite_nj (s : State) (a n : Nat) (x : BitVec (8 * n)) : (s.memWrite a n x).nj = s.nj := by
  rw [State.memWrite_eq]
@[simp] theorem State.memWrite_sat (s : State) (a n : Nat) (x : BitVec (8 * n)) : (s.memWrite a n x).sat = s.sat := by
  rw [State.memWrite_eq]
@[simp] theorem State.memWrite_pc (s : State) (a n : Nat) (x : BitVec (8 * n)) : (s.memWrite a n x).pc = s.pc := by
  rw [State.memWrite_eq]
@[simp] theorem State.memWrite_pcBits (s : State) (a n : Nat) (x : BitVec (8 * n)) :
    (s.memWrite a n x).pcBits = s.pcBits := by rw [State.memWrite_eq]
@[simp] theorem State.memWrite_haltPc (s : State) (a n : Nat) (x : BitVec (8 * n)) :
    (s.memWrite a n x).haltPc = s.haltPc := by rw [State.memWrite_eq]
@[simp] theorem State.memWrite_vmxEnabled (s : State) (a n : Nat) (x : BitVec (8 * n)) :
    (s.memWrite a n x).vmxEnabled = s.vmxEnabled := by rw [State.memWrite_eq]
@[simp] theorem State.memWrite_addrAdd (s : State) (a n : Nat) (x : BitVec (8 * n)) (b k : Nat) :
    (s.memWrite a n x).addrAdd b k = s.addrAdd b k := by simp [State.addrAdd]

/-! ### `addrAdd` -/

theorem State.addrAdd_lt (s : State) (a k : Nat) : s.addrAdd a k < 2 ^ s.pcBits :=
  Nat.mod_lt _ (by positivity)

/-- The successor address keeps the alignment, the wrap included (`10_state.md` R14). -/
theorem State.addrAdd_four_aligned (s : State) {a : Nat} (hw : 2 ≤ s.pcBits) (ha : a % 4 = 0) :
    s.addrAdd a 4 % 4 = 0 := by
  obtain ⟨k, hk⟩ := Nat.exists_eq_add_of_le hw
  have h4 : 4 ∣ 2 ^ s.pcBits := ⟨2 ^ k, by rw [hk, pow_add]; norm_num⟩
  rw [State.addrAdd, Nat.mod_mod_of_dvd _ h4]
  omega

end Sys2Proof.Machine
end

