-- ==== Sys2Proof/Laws/Memory.lean ====
section
/-!
SUPPORT. The byte map: a read after a write, the canonical form kept by every memory operation, and the four bytes that a
successful fetch reads.
-/

namespace Sys2Proof.Machine

@[simp] theorem Memory.read_nil (a : Nat) : Memory.read [] a = none := rfl

@[simp] theorem Memory.read_write_same (m : Memory) (a : Nat) (b : Byte) :
    Memory.read (Memory.write m a b) a = some b := by
  induction m with
  | nil => simp [Memory.write, Memory.read]
  | cons c m ih =>
    obtain ⟨k, d⟩ := c
    rcases lt_trichotomy a k with h | h | h
    · simp [Memory.write, Memory.read, h]
    · simp [Memory.write, Memory.read, h]
    · simp [Memory.write, Memory.read, ih, h.not_gt, h.ne', h.ne]

@[simp] theorem Memory.read_write_ne (m : Memory) {a a' : Nat} (b : Byte) (h : a' ≠ a) :
    Memory.read (Memory.write m a b) a' = Memory.read m a' := by
  induction m with
  | nil => simp [Memory.write, Memory.read, h.symm]
  | cons c m ih =>
    obtain ⟨k, d⟩ := c
    rcases lt_trichotomy a k with g | rfl | g
    · simp [Memory.write, Memory.read, g, h.symm]
    · simp [Memory.write, Memory.read, h.symm]
    · rw [Memory.write, if_neg g.not_gt, if_neg g.ne', Memory.read, Memory.read, ih]

/-- What a write lists: the written pair and pairs that were listed. -/
theorem Memory.mem_write {m : Memory} {a : Nat} {b : Byte} {c : Host.Cell} (h : c ∈ Memory.write m a b) :
    c = (a, b) ∨ c ∈ m := by
  induction m with
  | nil => simpa [Memory.write] using h
  | cons d m ih =>
    rw [Memory.write] at h
    split at h
    · simpa using h
    split at h
    · rcases List.mem_cons.mp h with h | h
      · exact .inl h
      · exact .inr (List.mem_cons_of_mem _ h)
    · rcases List.mem_cons.mp h with h | h
      · exact .inr (h ▸ List.mem_cons_self)
      · exact (ih h).imp_right (List.mem_cons_of_mem _)

@[simp] theorem Memory.wf_nil : Memory.wf [] := by simp [Memory.wf]

theorem Memory.wf_cons {k : Nat} {d : Byte} {m : Memory} :
    Memory.wf ((k, d) :: m) ↔ (∀ c ∈ m, k < c.1) ∧ Memory.wf m := by
  simp [Memory.wf, List.pairwise_cons]

/-- A write keeps the canonical form. -/
theorem Memory.write_wf {m : Memory} (a : Nat) (b : Byte) (h : Memory.wf m) : Memory.wf (Memory.write m a b) := by
  induction m with
  | nil => exact Memory.wf_cons.mpr ⟨by simp, h⟩
  | cons c m ih =>
    obtain ⟨k, d⟩ := c
    obtain ⟨hk, hm⟩ := Memory.wf_cons.mp h
    rw [Memory.write]
    split
    · rename_i g
      refine Memory.wf_cons.mpr ⟨fun c hc => ?_, h⟩
      rcases List.mem_cons.mp hc with rfl | hc
      · exact g
      · exact g.trans (hk c hc)
    split
    · rename_i g
      exact Memory.wf_cons.mpr ⟨g ▸ hk, hm⟩
    · rename_i g g'
      refine Memory.wf_cons.mpr ⟨fun c hc => ?_, ih hm⟩
      rcases Memory.mem_write hc with rfl | hc
      · exact lt_of_le_of_ne (not_lt.mp g) (Ne.symm g')
      · exact hk c hc

/-- Every write of bytes keeps the canonical form. -/
theorem State.memWrite_wf (s : State) (a n : Nat) (x : BitVec (8 * n)) (h : Memory.wf s.imem) :
    Memory.wf (s.memWrite a n x).imem := by
  induction n with
  | zero => exact h
  | succ n ih => exact Memory.write_wf _ _ (ih _)

/-- The placing of a word keeps the canonical form. -/
theorem State.placeWord_wf (s : State) (w : Word) (h : Memory.wf s.imem) : Memory.wf (s.placeWord w).imem :=
  State.memWrite_wf s s.pc 4 w h

theorem State.reset_imem_wf : Memory.wf State.reset.imem := Memory.wf_nil

/-- `MemRead(addr, 4)`: the four bytes, the lowest address most significant. -/
theorem State.memRead_four (s : State) (a : Nat) (w : Word) :
    s.memRead a 4 = some w ↔
      ∃ b0 b1 b2 b3, s.readByte (s.addrAdd a 0) = some b0 ∧ s.readByte (s.addrAdd a 1) = some b1 ∧
        s.readByte (s.addrAdd a 2) = some b2 ∧ s.readByte (s.addrAdd a 3) = some b3 ∧
        w = wordOfBytes b0 b1 b2 b3 := by
  simp only [State.memRead]
  rcases s.readByte (s.addrAdd a 0) with _ | b0
  · simp
  rcases s.readByte (s.addrAdd a 1) with _ | b1
  · simp
  rcases s.readByte (s.addrAdd a 2) with _ | b2
  · simp
  rcases s.readByte (s.addrAdd a 3) with _ | b3
  · simp
  have e : (0#0 ++ b0 : BitVec (0 + 8)) = b0 := by
    apply BitVec.eq_of_toNat_eq
    exact BitVec.toNat_append .. |>.trans (by simp)
  simp only [Option.some.injEq, exists_and_left, exists_eq_left', wordOfBytes]
  exact ⟨fun h => h.symm.trans (congrArg (· ++ b1 ++ b2 ++ b3) e), fun h => (congrArg (· ++ b1 ++ b2 ++ b3) e).trans h.symm⟩

end Sys2Proof.Machine
end

