-- ==== Sys2Proof/Laws/Operands.lean ====
section
/-!
SUPPORT. The views of a vector register: a lane of four lanes, a register made of its lanes, a lane of a lane-wise operation.
-/

namespace Sys2Proof.Machine

theorem lane_lanes (l0 l1 l2 l3 : Lane) (i : Fin 4) : lane (lanes l0 l1 l2 l3) i = ![l0, l1, l2, l3] i := by
  fin_cases i <;>
  · apply BitVec.eq_of_getLsbD_eq
    intro j hj
    simp only [lane, lanes, slice, BitVec.getLsbD_extractLsb', BitVec.getLsbD_append]
    simp
    grind

@[simp] theorem lane_lanes_zero (l0 l1 l2 l3 : Lane) : lane (lanes l0 l1 l2 l3) 0 = l0 := lane_lanes l0 l1 l2 l3 0
@[simp] theorem lane_lanes_one (l0 l1 l2 l3 : Lane) : lane (lanes l0 l1 l2 l3) 1 = l1 := lane_lanes l0 l1 l2 l3 1
@[simp] theorem lane_lanes_two (l0 l1 l2 l3 : Lane) : lane (lanes l0 l1 l2 l3) 2 = l2 := lane_lanes l0 l1 l2 l3 2
@[simp] theorem lane_lanes_three (l0 l1 l2 l3 : Lane) : lane (lanes l0 l1 l2 l3) 3 = l3 := lane_lanes l0 l1 l2 l3 3

/-- A register is its four lanes. -/
@[simp] theorem lanes_lane (x : VReg) : lanes (lane x 0) (lane x 1) (lane x 2) (lane x 3) = x := by
  apply BitVec.eq_of_getLsbD_eq
  intro j hj
  simp only [lane, lanes, slice, BitVec.getLsbD_extractLsb', BitVec.getLsbD_append]
  simp
  grind

/-- Two registers with the same lanes are the same register value. -/
theorem vreg_ext {x y : VReg} (h : ∀ i, lane x i = lane y i) : x = y := by
  rw [← lanes_lane x, ← lanes_lane y, h 0, h 1, h 2, h 3]

/-- Lane i of a lane-wise operation is the operation on lanes i. -/
@[simp] theorem lane_mapLanes (f : Lane → Lane → Lane) (x y : VReg) (i : Fin 4) :
    lane (mapLanes f x y) i = f (lane x i) (lane y i) := by
  rw [mapLanes, lane_lanes]
  fin_cases i <;> rfl

end Sys2Proof.Machine
end

