-- ==== Sys2Proof/Laws/Exec.lean ====
section
/-!
SUPPORT. Everything an instruction can do, said once (`40_vector_float_add.md` R46, R47; `60_exceptions.md` R60, R61).
-/

namespace Sys2Proof.Machine

/-- The state after a vector floating-point add. -/
def State.afterAdd (s : State) (vd va vb : RegNo) : State :=
  (s.writeV vd (mapLanes (fun x y => laneAdd x y s.nj) (s.readV va) (s.readV vb))).advancePc

/-- Both instructions have the one shared effect. -/
theorem exec_eq (i : Instr) (s : State) : exec i s = vectorFloatAdd i.dest i.srcA i.srcB s := by
  cases i <;> rfl

theorem vectorFloatAdd_enabled {vd va vb : RegNo} {s : State} (h : s.vmxEnabled = true) :
    vectorFloatAdd vd va vb s = .next (s.afterAdd vd va vb) := by
  rw [vectorFloatAdd, if_pos h]; rfl

theorem vectorFloatAdd_disabled {vd va vb : RegNo} {s : State} (h : s.vmxEnabled = false) :
    vectorFloatAdd vd va vb s = .refused .vmxNotEnabled := by
  simp [vectorFloatAdd, h]

/-- If an instruction answers a next state, the vector unit is enabled and the state is that of the addition. -/
theorem exec_next {i : Instr} {s t : State} (h : exec i s = .next t) :
    s.vmxEnabled = true ∧ t = s.afterAdd i.dest i.srcA i.srcB := by
  rw [exec_eq, vectorFloatAdd] at h
  split at h
  · exact ⟨‹_›, (Host.Outcome.next.inj h).symm⟩
  · cases h

/-! ### The fields after an addition -/

@[simp] theorem State.afterAdd_nj (s : State) (d a b : RegNo) : (s.afterAdd d a b).nj = s.nj := rfl
@[simp] theorem State.afterAdd_sat (s : State) (d a b : RegNo) : (s.afterAdd d a b).sat = s.sat := rfl
@[simp] theorem State.afterAdd_pc (s : State) (d a b : RegNo) : (s.afterAdd d a b).pc = s.addrAdd s.pc 4 := rfl
@[simp] theorem State.afterAdd_pcBits (s : State) (d a b : RegNo) : (s.afterAdd d a b).pcBits = s.pcBits := rfl
@[simp] theorem State.afterAdd_imem (s : State) (d a b : RegNo) : (s.afterAdd d a b).imem = s.imem := rfl
@[simp] theorem State.afterAdd_haltPc (s : State) (d a b : RegNo) : (s.afterAdd d a b).haltPc = s.haltPc := rfl
@[simp] theorem State.afterAdd_vmxEnabled (s : State) (d a b : RegNo) :
    (s.afterAdd d a b).vmxEnabled = s.vmxEnabled := rfl

@[simp] theorem State.afterAdd_readV_dest (s : State) (d a b : RegNo) :
    (s.afterAdd d a b).readV d = mapLanes (fun x y => laneAdd x y s.nj) (s.readV a) (s.readV b) := by
  simp [State.afterAdd]

@[simp] theorem State.afterAdd_readV_ne (s : State) {d r : RegNo} (a b : RegNo) (h : r ≠ d) :
    (s.afterAdd d a b).readV r = s.readV r := by
  simp [State.afterAdd, h]

end Sys2Proof.Machine
end

