-- ==== Sys2Proof/Laws/Float.lean ====
section
/-!
SUPPORT. The format of a lane, its classes, the free NaN, the flush, and the cases of the sum, each said once.
-/

namespace Sys2Proof.Machine

/-! ### Fields -/

theorem expOf_lt (x : Lane) : expOf x < 256 := (slice x 23 8).isLt

theorem fracOf_lt (x : Lane) : fracOf x < 2 ^ 23 := (slice x 0 23).isLt

theorem packLane_toNat (sg : Bool) {e f : Nat} (he : e < 256) (hf : f < 2 ^ 23) :
    (packLane sg e f).toNat = sg.toNat * 2 ^ 31 + e * 2 ^ 23 + f := by
  simp only [packLane, BitVec.toNat_append, BitVec.toNat_ofNat, BitVec.toNat_ofBool]
  rw [Nat.mod_eq_of_lt (show e < 2 ^ 8 from he), Nat.mod_eq_of_lt hf,
    Nat.shiftLeft_eq, Nat.shiftLeft_eq, Nat.mul_comm _ (2 ^ 8), Nat.mul_comm _ (2 ^ 23),
    ← Nat.two_pow_add_eq_or_of_lt (show e < 2 ^ 8 from he), ← Nat.two_pow_add_eq_or_of_lt hf]
  ring

@[simp] theorem signOf_packLane (sg : Bool) {e f : Nat} (he : e < 256) (hf : f < 2 ^ 23) :
    signOf (packLane sg e f) = sg := by
  rw [signOf, BitVec.msb_eq_decide, packLane_toNat sg he hf]
  cases sg <;> simp <;> omega

@[simp] theorem expOf_packLane (sg : Bool) {e f : Nat} (he : e < 256) (hf : f < 2 ^ 23) :
    expOf (packLane sg e f) = e := by
  rw [expOf, slice_toNat, packLane_toNat sg he hf]
  cases sg <;> simp <;> omega

@[simp] theorem fracOf_packLane (sg : Bool) {e f : Nat} (he : e < 256) (hf : f < 2 ^ 23) :
    fracOf (packLane sg e f) = f := by
  rw [fracOf, slice_toNat, packLane_toNat sg he hf]
  cases sg <;> simp <;> omega

/-- A lane is its three fields. -/
theorem packLane_fields (x : Lane) : packLane (signOf x) (expOf x) (fracOf x) = x := by
  apply BitVec.eq_of_toNat_eq
  rw [packLane_toNat _ (expOf_lt x) (fracOf_lt x), signOf, BitVec.msb_eq_decide, expOf, fracOf, slice_toNat, slice_toNat]
  have := x.isLt
  by_cases h : 2 ^ (32 - 1) ≤ x.toNat <;> simp only [h, decide_true, decide_false, Bool.toNat_true, Bool.toNat_false] <;> omega

/-- Two lanes with the same fields are the same lane. -/
theorem lane_ext {x y : Lane} (hs : signOf x = signOf y) (he : expOf x = expOf y) (hf : fracOf x = fracOf y) : x = y := by
  rw [← packLane_fields x, ← packLane_fields y, hs, he, hf]

/-! ### Classes -/

theorem classOf_eq_zero {x : Lane} : classOf x = .zero ↔ expOf x = 0 ∧ fracOf x = 0 := by
  unfold classOf; split_ifs <;> simp_all

theorem classOf_eq_denormal {x : Lane} : classOf x = .denormal ↔ expOf x = 0 ∧ fracOf x ≠ 0 := by
  unfold classOf; split_ifs <;> simp_all

theorem classOf_eq_normal {x : Lane} : classOf x = .normal ↔ expOf x ≠ 0 ∧ expOf x ≠ 255 := by
  unfold classOf; split_ifs <;> simp_all

theorem classOf_eq_infinity {x : Lane} : classOf x = .infinity ↔ expOf x = 255 ∧ fracOf x = 0 := by
  unfold classOf; split_ifs <;> simp_all

theorem classOf_eq_nan {x : Lane} : classOf x = .nan ↔ expOf x = 255 ∧ fracOf x ≠ 0 := by
  unfold classOf; split_ifs <;> simp_all

/-- All that is known of the free NaN: it is one. -/
theorem classOf_nanResult (a b : Lane) : classOf (nanResult a b) = .nan := by
  have h : (Config.nanFrac a b).val + 1 < 2 ^ 23 := by have := (Config.nanFrac a b).isLt; omega
  rw [classOf_eq_nan, nanResult, expOf_packLane _ (by norm_num) h, fracOf_packLane _ (by norm_num) h]
  simp

/-! ### Flush -/

theorem flushDenorm_of_denormal {x : Lane} (h : classOf x = .denormal) : flushDenorm x = packLane (signOf x) 0 0 := by
  rw [flushDenorm, if_pos h]

theorem flushDenorm_of_ne {x : Lane} (h : classOf x ≠ .denormal) : flushDenorm x = x := by
  rw [flushDenorm, if_neg h]

/-! ### The cases of the sum -/

theorem fadd32_of_nan {a b : Lane} (h : classOf a = .nan ∨ classOf b = .nan) : fadd32 a b = nanResult a b := by
  rw [fadd32, if_pos h]

theorem fadd32_of_infinities {a b : Lane} (ha : classOf a = .infinity) (hb : classOf b = .infinity) :
    fadd32 a b = if a = b then a else nanResult a b := by
  simp [fadd32, ha, hb]

theorem fadd32_of_infinity_left {a b : Lane} (ha : classOf a = .infinity) (hb : classOf b ≠ .nan)
    (hb' : classOf b ≠ .infinity) : fadd32 a b = a := by
  simp [fadd32, ha, hb, hb']

theorem fadd32_of_infinity_right {a b : Lane} (hb : classOf b = .infinity) (ha : classOf a ≠ .nan)
    (ha' : classOf a ≠ .infinity) : fadd32 a b = b := by
  simp [fadd32, ha, hb, ha']

theorem fadd32_of_zeros {a b : Lane} (ha : classOf a = .zero) (hb : classOf b = .zero) :
    fadd32 a b = if a = b then a else 0 := by
  simp [fadd32, ha, hb]

theorem isFinite_iff {x : Lane} : isFinite x = true ↔ classOf x ≠ .nan ∧ classOf x ≠ .infinity := by
  rw [Ne, Ne, classOf_eq_nan, classOf_eq_infinity]; simp [isFinite]; tauto

/-- The sum of two finite lanes that are not both zeros. -/
theorem fadd32_of_finite {a b : Lane} (ha : isFinite a = true) (hb : isFinite b = true)
    (hz : ¬(classOf a = .zero ∧ classOf b = .zero)) :
    fadd32 a b = if scaledVal a + scaledVal b = 0 then 0 else round32 (scaledVal a + scaledVal b) := by
  rw [isFinite_iff] at ha hb
  simp only [fadd32, ha, hb, hz, or_self, and_self, if_false]

/-! ### The lane add -/

theorem laneAdd_true (a b : Lane) : laneAdd a b true = flushDenorm (fadd32 (flushDenorm a) (flushDenorm b)) := by
  rw [laneAdd, if_pos rfl]

theorem laneAdd_false (a b : Lane) : laneAdd a b false = fadd32 a b := by
  rw [laneAdd, if_neg Bool.false_ne_true]

end Sys2Proof.Machine
end

