-- ==== Sys2Proof/Laws/PerInstr.lean ====
section
/-!
SUPPORT. What holds of every instruction as syntax: its word carries its row's fixed bits (`30_encoding.md` R34).
-/

namespace Sys2Proof

/-- The match value of the instruction's row of the opcode table. -/
def Instr.matchBits : Instr → Word
  | .vaddfp _ _ _ => 0x1000000A
  | .vaddfp128 _ _ _ => 0x14000010

/-- The mask of the instruction's row of the opcode table. -/
def Instr.maskBits : Instr → Word
  | .vaddfp _ _ _ => 0xFC0007FF
  | .vaddfp128 _ _ _ => 0xFC0003D0

/-- The word of the instruction has its row's fixed bits. -/
def Laws.FixedBits.Statement (i : Instr) : Prop :=
  encode i &&& i.maskBits = i.matchBits

theorem Laws.FixedBits.vaddfp (vd va vb : RegNo) : Laws.FixedBits.Statement (.vaddfp vd va vb) := by
  apply BitVec.eq_of_getLsbD_eq
  intro j hj
  simp only [encode, encodeVaddfp, Instr.maskBits, Instr.matchBits, slice, BitVec.getLsbD_and, BitVec.getLsbD_append,
    BitVec.getLsbD_extractLsb']
  interval_cases j <;> simp

theorem Laws.FixedBits.vaddfp128 (vd va vb : RegNo) : Laws.FixedBits.Statement (.vaddfp128 vd va vb) := by
  apply BitVec.eq_of_getLsbD_eq
  intro j hj
  simp only [encode, encodeVaddfp128, Instr.maskBits, Instr.matchBits, slice, BitVec.getLsbD_and, BitVec.getLsbD_append,
    BitVec.getLsbD_extractLsb']
  interval_cases j <;> simp

end Sys2Proof
end

