-- ==== Sys2Proof/Laws/Step.lean ====
section
/-!
SUPPORT. Everything a fetch and a step can do, said once (`20_memory.md` R22, `70_reset_and_hazards.md` R72).
-/

namespace Sys2Proof.Machine

theorem State.fetch_ok {s : State} {w : Word} :
    s.fetch = .ok w ↔ s.pc % 4 = 0 ∧ s.memRead s.pc 4 = some w := by
  unfold State.fetch
  split
  · split <;> rename_i h <;> simp_all
  · simp_all

theorem State.fetch_error {s : State} {r : Refusal} (h : s.fetch = .error r) :
    (r = .fetchMisaligned ∧ s.pc % 4 ≠ 0) ∨ (r = .fetchOutsideImem ∧ s.pc % 4 = 0 ∧ s.memRead s.pc 4 = none) := by
  unfold State.fetch at h
  split at h
  · split at h
    · cases h
    · exact .inr ⟨(Except.error.inj h).symm, ‹_›, ‹_›⟩
  · exact .inl ⟨(Except.error.inj h).symm, ‹_›⟩

/-- If a step answers a next state, the state was not final, the fetched word decoded, and the instruction ran. -/
theorem step_next {s t : State} (h : step s = .next t) :
    s.haltPc ≠ some s.pc ∧ ∃ w i, s.fetch = .ok w ∧ decodeWord w = .ok i ∧ s.vmxEnabled = true ∧
      t = s.afterAdd i.dest i.srcA i.srcB := by
  unfold step at h
  split at h
  · cases h
  split at h
  · cases h
  split at h
  · cases h
  · exact ⟨‹_›, _, _, ‹_›, ‹_›, exec_next h⟩

/-- A step that answers a fault is at a final state. -/
theorem step_fault {s : State} {f : Fault} (h : step s = .fault f) : s.haltPc = some s.pc ∧ f = .runOver := by
  unfold step at h
  split at h
  · exact ⟨‹_›, (Host.Outcome.fault.inj h).symm⟩
  split at h
  · cases h
  split at h
  · cases h
  · rw [exec_eq, vectorFloatAdd] at h
    split at h <;> cases h

/-! ### Runs -/

theorem run_succ_of_next (M : Host.Core) {s s' : M.State} (n : Nat) (h : M.step s = .next s') :
    M.run (n + 1) s = M.run n s' := by
  rw [Host.Core.run, h]

theorem run_succ_next (M : Host.Core) {n : Nat} {s t : M.State} (h : M.run (n + 1) s = .next t) :
    ∃ s', M.step s = .next s' ∧ M.run n s' = .next t := by
  rw [Host.Core.run] at h
  split at h
  · exact ⟨_, ‹_›, h⟩
  · cases h
  · cases h

/-- A run of `n + 1` steps whose first step answers `s'`. -/
theorem core_run_succ_of_next {s s' : State} (n : Nat) (h : step s = .next s') :
    Sys2Proof.core.run (n + 1) s = Sys2Proof.core.run n s' :=
  run_succ_of_next Sys2Proof.core n h

/-- A run of `n + 1` steps that answers a next state: its first step and the rest. -/
theorem core_run_succ_next {n : Nat} {s t : State} (h : Sys2Proof.core.run (n + 1) s = .next t) :
    ∃ s', step s = .next s' ∧ Sys2Proof.core.run n s' = .next t :=
  run_succ_next Sys2Proof.core h

end Sys2Proof.Machine
end

