-- ==== Sys2Proof/Laws/Run.lean ====
section
/-!
SUPPORT. Runs that nothing outside disturbs (`70_reset_and_hazards.md` R70, premise 5): what they are step by step, and that
one starts from every state.
-/

namespace Sys2Proof.Machine

/-- A run comes to its first instruction. -/
theorem reached_zero (tr : Nat → State) : Reached tr 0 := fun _ h => absurd h (Nat.not_lt_zero _)

/-- A run comes to one more instruction exactly if the step there answers a next state. -/
theorem reached_succ {tr : Nat → State} {n : Nat} :
    Reached tr (n + 1) ↔ Reached tr n ∧ ∃ t, step (tr n) = .next t := by
  refine ⟨fun h => ⟨fun k hk => h k (by omega), h n (by omega)⟩, fun h k hk => ?_⟩
  rcases Nat.lt_succ_iff_lt_or_eq.mp hk with hk | rfl
  · exact h.1 k hk
  · exact h.2

/-- In an undisturbed run the state before the next instruction is the one the step answered. -/
theorem Undisturbed.step_eq {tr : Nat → State} (h : Undisturbed tr) {n : Nat} (hn : ∃ t, step (tr n) = .next t) :
    step (tr n) = .next (tr (n + 1)) := by
  obtain ⟨t, ht⟩ := hn
  rw [ht, h n t ht]

/-- What every step keeps holds at every instruction an undisturbed run comes to. -/
theorem Undisturbed.induction {tr : Nat → State} (h : Undisturbed tr) {P : State → Prop} (h0 : P (tr 0))
    (hs : ∀ s t, P s → step s = .next t → P t) (n : Nat) (hn : Reached tr n) : P (tr n) := by
  induction n with
  | zero => exact h0
  | succ n ih => exact hs _ _ (ih (reached_succ.mp hn).1) (h.step_eq (reached_succ.mp hn).2)

/-- The state a step answers, or the same state where it answers none. -/
def State.after (s : State) : State :=
  match step s with
  | .next t => t
  | .fault _ => s
  | .refused _ => s

/-- The undisturbed run from a state. -/
def State.trace (s : State) : Nat → State
  | 0 => s
  | n + 1 => (s.trace n).after

/-- From every state there is an undisturbed run, so the premise can be met. -/
theorem State.trace_undisturbed (s : State) : Undisturbed s.trace := by
  intro n t h
  rw [State.trace, State.after, h]

end Sys2Proof.Machine
end

