-- ==== Sys2Proof/Tests/Slice0.lean ====
section
/-!
SUPPORT. The model's own tests: the checks of WellFormed, words written out from the encodings of `30_encoding.md`, a few lane
and instruction vectors of `95_test_vectors.md`, and a witness for the hypotheses of each statement.
-/

namespace Sys2Proof.Tests

open Sys2Proof.Machine

/-! ### WellFormed: each check of `vaddfp` refuses a register number that its 5-bit field cannot hold (R31) -/

theorem test_wellFormed_vd : ¬(Instr.vaddfp 32 0 0).WellFormed := by decide
theorem test_wellFormed_va : ¬(Instr.vaddfp 0 64 0).WellFormed := by decide
theorem test_wellFormed_vb : ¬(Instr.vaddfp 0 0 127).WellFormed := by decide
theorem test_wellFormed_top : (Instr.vaddfp 31 31 31).WellFormed ∧ (Instr.vaddfp128 127 127 127).WellFormed := by decide

/-! ### Decoding: words written out bit by bit, source bit 0 on the left (R31, R32; `95_test_vectors.md` section 2) -/

/-- `vaddfp v5, v6, v7`: OPCD VD VA VB XO. -/
theorem test_decode_vaddfp : decodeWord 0b000100_00101_00110_00111_00000001010 = .ok (.vaddfp 5 6 7) := by decide

/-- `vaddfp128 v100, v77, v45`: OPCD VD128l VA128l VB128l VA128H 0 000 VA128h 1 VD128h VB128h. -/
theorem test_decode_vaddfp128 :
    decodeWord 0b000101_00100_01101_01101_1_0_000_0_1_11_01 = .ok (.vaddfp128 100 77 45) := by decide

/-- Each high piece of a register number on its own. -/
theorem test_decode_vaddfp128_pieces :
    decodeWord 0b000101_00000_00000_00000_0_0_000_0_1_10_00 = .ok (.vaddfp128 64 0 0) ∧
    decodeWord 0b000101_00000_00000_00000_0_0_000_0_1_01_00 = .ok (.vaddfp128 32 0 0) ∧
    decodeWord 0b000101_00000_00000_00000_1_0_000_0_1_00_00 = .ok (.vaddfp128 0 64 0) ∧
    decodeWord 0b000101_00000_00000_00000_0_0_000_1_1_00_00 = .ok (.vaddfp128 0 32 0) ∧
    decodeWord 0b000101_00000_00000_00000_0_0_000_0_1_00_10 = .ok (.vaddfp128 0 0 64) ∧
    decodeWord 0b000101_00000_00000_00000_0_0_000_0_1_00_01 = .ok (.vaddfp128 0 0 32) := by decide

/-- Each fixed bit of `vaddfp128` on its own, and primary opcode 4 with them (R35, C3). -/
theorem test_decode_rejects :
    decodeWord 0x1000000B = .error .otherExtendedOpcode ∧ decodeWord 0x10000010 = .error .otherExtendedOpcode ∧
    decodeWord 0x14000000 = .error .otherFixedBits ∧ decodeWord 0x14000210 = .error .otherFixedBits ∧
    decodeWord 0x14000050 = .error .otherFixedBits ∧ decodeWord 0x14000090 = .error .otherFixedBits ∧
    decodeWord 0x14000110 = .error .otherFixedBits ∧ decodeWord 0x00000000 = .error .otherPrimaryOpcode := by decide

/-- The bytes of `vaddfp v3, v3, v4`, lowest address first (`95_test_vectors.md` section 5), what follows them, and too few. -/
theorem test_decode_bytes :
    decode [0x10, 0x63, 0x20, 0x0A, 0xFF] = .ok (.vaddfp 3 3 4, [0xFF]) ∧
    decode [0x10, 0x63, 0x20] = .error .truncated := by decide

/-- The spelling of the source's example (R39). -/
theorem test_asm : (Instr.vaddfp 3 3 4).asm = "vaddfp v3, v3, v4" := by decide

/-! ### Lanes (`95_test_vectors.md` section 3) -/

/-- Rows 1, 3, 4, 5, 7, 8, 12, 13, 26: an exact sum, signs of zero, both ties, the overflow threshold, a flushed result. -/
theorem test_laneAdd_rows :
    laneAdd 0x3F800000 0x40000000 true = 0x40400000 ∧ laneAdd 0xBF800000 0x3F800000 true = 0x00000000 ∧
    laneAdd 0x00000000 0x80000000 true = 0x00000000 ∧ laneAdd 0x80000000 0x80000000 true = 0x80000000 ∧
    laneAdd 0x3F800000 0x33800000 true = 0x3F800000 ∧ laneAdd 0x3F800001 0x33800000 true = 0x3F800002 ∧
    laneAdd 0x7F7FFFFF 0x73000000 true = 0x7F800000 ∧ laneAdd 0x7F7FFFFF 0x72FFFFFF true = 0x7F7FFFFF ∧
    laneAdd 0x00C00000 0x80800000 true = 0x00000000 := by decide

/-- Rows 22, 24, 25, 31, 34 with NJ clear: denormal operands count, denormal results are delivered. -/
theorem test_laneAdd_rows_nj_clear :
    laneAdd 0x00000001 0x00000001 false = 0x00000002 ∧ laneAdd 0x007FFFFF 0x00000001 false = 0x00800000 ∧
    laneAdd 0x00800000 0x80000001 false = 0x007FFFFF ∧ laneAdd 0x80C00000 0x00800000 false = 0x80400000 ∧
    laneAdd 0x00800001 0x80800000 false = 0x00000001 := by decide

/-- Rows 15, 20, 21: the result is some NaN. -/
theorem test_laneAdd_nan :
    classOf (laneAdd 0x7F800000 0xFF800000 false) = .nan ∧ classOf (laneAdd 0x7FC00000 0x3F800000 false) = .nan ∧
    classOf (laneAdd 0x3F800000 0x7F800001 false) = .nan := by
  refine ⟨?_, ?_, ?_⟩ <;> rw [laneAdd_false, fadd32] <;> exact classOf_nanResult _ _

/-! ### One step (`95_test_vectors.md` vectors V3 and V5, programs P1 and P3) -/

/-- A register file with two registers set. -/
def regsWith (i : Fin 128) (x : VReg) (j : Fin 128) (y : VReg) : Vector VReg 128 :=
  ((Vector.replicate 128 0).set i x).set j y

/-- One word at address 0 and the end of the run behind it. -/
def oneWord (w : Word) (v : Vector VReg 128) : State :=
  { State.reset with
    v := v
    imem := [(0, slice w 24 8), (1, slice w 16 8), (2, slice w 8 8), (3, slice w 0 8)]
    haltPc := some 4 }

/-- `vaddfp v3, v3, v4` on the operands of V3. -/
def v3State : State :=
  oneWord 0x1063200A
    (regsWith 3 (lanes 0x3F800000 0x40000000 0x40400000 0x40800000)
      4 (lanes 0x3F000000 0xC0000000 0x7F800000 0x000116C2))

/-- `vaddfp128 v64, v1, v2` on the operands of V5. -/
def v5State : State :=
  oneWord 0x14011018
    (regsWith 1 (lanes 0x3F800000 0x40000000 0x40400000 0x40800000)
      2 (lanes 0x41200000 0x41A00000 0x41F00000 0x42200000))

/-- What a step's next state satisfies. -/
def nextIs (o : Host.Outcome State Fault Refusal) (p : State → Bool) : Bool :=
  match o with
  | .next t => p t
  | .fault _ => false
  | .refused _ => false

theorem nextIs_elim {o : Host.Outcome State Fault Refusal} {p : State → Bool} (h : nextIs o p = true) :
    ∃ t, o = .next t ∧ p t = true := by
  cases o with
  | next t => exact ⟨t, rfl, h⟩
  | fault => cases h
  | refused => cases h

theorem test_step_vaddfp :
    nextIs (step v3State) (fun t =>
      t.readV 3 == lanes 0x3FC00000 0x00000000 0x7F800000 0x40800000 && t.readV 4 == v3State.readV 4 && t.pc == 4) = true := by
  decide

theorem test_step_vaddfp128 :
    nextIs (step v5State) (fun t =>
      t.readV 64 == lanes 0x41300000 0x41B00000 0x42040000 0x42300000 && t.pc == 4) = true := by
  decide

/-- A word at reset runs, the host's way. -/
theorem test_withFetchWord :
    nextIs (step (State.reset.withFetchWord 32 0x17FFFC3F)) (fun t => t.pc == 4) = true ∧
    decodeTableWord 32 0x17FFFC3F = some (.vaddfp128 127 127 127) := by
  decide

/-! ### Witnesses for the hypotheses of the statements -/

/-- A state of the demonstration is legal. -/
theorem oneWord_inv (w : Word) (v : Vector VReg 128) : (oneWord w v).Inv where
  width := show 2 ≤ 32 by decide
  pc := show 0 < 2 ^ 32 ∧ 0 % 4 = 0 by decide
  halt := by rintro h ⟨⟩; exact show 4 < 2 ^ 32 ∧ 4 % 4 = 0 by decide
  canonical := by simp [oneWord, Memory.wf]
  inSpace := by simp [oneWord, State.reset, Config.pcBitsDefault]

theorem test_witness_step :
    ∃ t, step v3State = .next t ∧ Sys2Proof.core.run 1 v3State = .next t := by
  obtain ⟨t, h, -⟩ := nextIs_elim test_step_vaddfp
  exact ⟨t, h, core_run_succ_of_next 0 h⟩

theorem v3State_fetch : v3State.fetch = .ok 0x1063200A := by
  rw [State.fetch_ok]; decide

theorem v5State_fetch : v5State.fetch = .ok 0x14011018 := by
  rw [State.fetch_ok]; decide

/-- DecodeOfEncode, EncodeOfDecode: both forms at their highest operands. -/
theorem test_witness_roundTrips :
    (Instr.vaddfp 31 0 31).WellFormed ∧ (Instr.vaddfp128 127 0 127).WellFormed ∧
    decodeWord 0x13FFF80A = .ok (.vaddfp 31 31 31) ∧ decodeWord 0x17FFFC3F = .ok (.vaddfp128 127 127 127) := by decide

/-- EncoderFormulas, TwoEncodingsOneOperation, VaddfpRule, Vaddfp128Rule: operands at the ends of the 5-bit range. -/
theorem test_witness_fits : fitsVx 0 = true ∧ fitsVx 31 = true ∧ fitsVx 32 = false := by decide

/-- InstructionIsFourBytes: bytes that decode with a rest, and too few. -/
theorem test_witness_bytes :
    decode [0x14, 0x01, 0x10, 0x18, 0xAA, 0xBB] = .ok (.vaddfp128 64 1 2, [0xAA, 0xBB]) ∧
    ([0x14, 0x01, 0x10] : List Byte).length < 4 := by decide

/-- Vx128RegisterNumbers: a word with every piece of every number set. -/
theorem test_witness_vx128 : decodeWord 0x17FFFC3F = .ok (.vaddfp128 127 127 127) := by decide

/-- VaddfpRule, Vaddfp128Rule: words of the patterns and outside the second, and the examples' operands. -/
theorem test_witness_rules :
    (0x13FFF80A#32 &&& 0xFC0007FF#32 = 0x1000000A#32 ∧ 0x17FFFC3F#32 &&& 0xFC0003D0#32 = 0x14000010#32 ∧
      0x14000210#32 &&& 0xFC0003D0#32 ≠ 0x14000010#32) ∧
    v3State.vmxEnabled = true ∧ v3State.nj = true ∧
    v3State.readV 3 = lanes 0x3F800000 0x40000000 0x40400000 0x40800000 ∧
    v3State.readV 4 = lanes 0x3F000000 0xC0000000 0x7F800000 0x000116C2 ∧
    v5State.vmxEnabled = true ∧ v5State.nj = true ∧
    v5State.readV 1 = lanes 0x3F800000 0x40000000 0x40400000 0x40800000 ∧
    v5State.readV 2 = lanes 0x41200000 0x41A00000 0x41F00000 0x42200000 := by decide

/-- FloatAddFrame, NoSynchronousException, PcGoesToNextInstruction: both instructions answer a next state, at the last
address of the space too, where `pc` wraps to 0. -/
theorem test_witness_exec :
    nextIs (exec (.vaddfp 3 3 4) { v3State with pc := 4294967292 }) (fun t => t.pc == 0) = true ∧
    nextIs (exec (.vaddfp128 64 1 2) v5State) (fun t => t.pc == 4) = true ∧ (4 ∣ 4294967292) := by decide

/-- VectorUnitDisabledRefused: such a state. -/
theorem test_witness_disabled : ({ v3State with vmxEnabled := false } : State).vmxEnabled = false := rfl

/-- LaneIndependenceAndAliasing: two states that agree on lane 0 of the operands and differ elsewhere, and an order. -/
theorem test_witness_lanes :
    let s' := v3State.writeV 4 (lanes 0x3F000000 0 0 0)
    nextIs (exec (.vaddfp 3 3 4) v3State) (fun _ => true) = true ∧ nextIs (exec (.vaddfp 3 3 4) s') (fun _ => true) = true ∧
    v3State.nj = s'.nj ∧ lane (v3State.readV 3) 0 = lane (s'.readV 3) 0 ∧ lane (v3State.readV 4) 0 = lane (s'.readV 4) 0 ∧
    v3State.readV 4 ≠ s'.readV 4 ∧ List.Perm [3, 1, 0, 2] ([0, 1, 2, 3] : List (Fin 4)) := by decide

/-- VxStaysInLowRegisters: a step at a `vaddfp` word, and a state that differs in `v64` and SAT only. -/
theorem test_witness_low :
    v3State.At (.vaddfp 3 3 4) ∧ nextIs (step v3State) (fun _ => true) = true ∧
    v3State.AgreeLow { v3State.writeV 64 1 with sat := true } := by
  refine ⟨⟨_, v3State_fetch, by decide⟩, by decide, ?_, rfl, rfl, rfl, rfl, rfl, rfl⟩
  intro r hr
  exact State.readV_writeV_ne v3State 1 (by rintro rfl; exact absurd hr (by decide))

/-- RegisterViews: the smallest width in which sixteen addresses differ, and the image of section 5 across the wrap. -/
theorem test_witness_image :
    let s : State := { State.reset with pcBits := 4 }
    let x := lanes 0x3F800000 0x40000000 0x40400000 0x40800000
    4 ≤ s.pcBits ∧ (s.memWrite 12 16 x).readByte 12 = some 0x3F ∧ (s.memWrite 12 16 x).readByte 13 = some 0x80 ∧
      (s.memWrite 12 16 x).readByte 0 = some 0x40 := by decide

/-- CanonicalMemoryUnique: a canonical memory, and one that is not. -/
theorem test_witness_memory :
    Memory.wf (Memory.write (Memory.write [] 5 1) 3 2) ∧ ¬Memory.wf [(5, 1), (3, 2)] := by decide

/-- StepRunsDecoded: both instructions at a state that is not final. -/
theorem test_witness_decoded :
    ¬v3State.Final ∧ v3State.At (.vaddfp 3 3 4) ∧ ¬v5State.Final ∧ v5State.At (.vaddfp128 64 1 2) := by
  refine ⟨?_, ⟨_, v3State_fetch, by decide⟩, ?_, ⟨_, v5State_fetch, by decide⟩⟩ <;> (unfold State.Final; decide)

/-- StepWithoutInstruction: a final state, a misaligned `pc`, a word whose last byte is missing, a word not specified. -/
theorem test_witness_no_instruction :
    ({ v3State with pc := 4 } : State).Final ∧
    (¬({ v3State with pc := 2 } : State).Final ∧ 2 % 4 ≠ 0) ∧
    (let s : State := { v3State with imem := [(0, 0x10), (1, 0x63), (2, 0x20)] }
     ¬s.Final ∧ s.pc % 4 = 0 ∧ s.readByte (s.addrAdd s.pc 3) = none) ∧
    (let s := oneWord 0x1000000B (Vector.replicate 128 0)
     ¬s.Final ∧ s.memRead s.pc 4 = some 0x1000000B#32 ∧ decodeWord 0x1000000B = .error .otherExtendedOpcode) := by
  unfold State.Final; decide

/-- StepKeepsInv, RunKeepsVscrAndParameters (its clause on one step): a legal state with NJ set that steps. -/
theorem test_witness_inv : v3State.Inv ∧ v3State.nj = true ∧ nextIs (step v3State) (fun _ => true) = true :=
  ⟨oneWord_inv _ _, by decide, by decide⟩

/-- NjSetAfterReset, RunKeepsVscrAndParameters: an undisturbed run with NJ set that comes to its
second instruction, and one that some other agent disturbed, which the premise shuts out. -/
theorem test_witness_undisturbed :
    Undisturbed v3State.trace ∧ (v3State.trace 0).nj = true ∧ Reached v3State.trace 1 ∧
    ¬Undisturbed (fun _ => v3State) := by
  refine ⟨v3State.trace_undisturbed, by decide, ?_, fun h => ?_⟩
  · obtain ⟨t, h, -⟩ := test_witness_step
    exact reached_succ.mpr ⟨reached_zero _, t, h⟩
  · obtain ⟨t, ht, hp⟩ := nextIs_elim test_step_vaddfp
    rw [← h 0 t ht] at hp
    exact absurd hp (by decide)

/-- The launch of P1 at address 0. -/
def p1Launch : Launch where
  pcBits := 32
  imem := v3State.imem
  entryPc := 0
  haltPc := 4
  v := v3State.v
  nj := true
  sat := true
  vmxEnabled := true

/-- ResetAndLaunchInv: a legal launch. -/
theorem test_witness_launch : p1Launch.Legal where
  width := by decide
  entry := by unfold InstrAddr; decide
  halt := by unfold InstrAddr; decide
  canonical := by decide
  inSpace := by decide
  enabled := rfl

/-- RunUnderLaunchPremises: a run that meets all the premises and comes to its end, after one instruction. -/
theorem test_witness_premises :
    RunPremises p1Launch (State.launch p1Launch).trace ∧ Reached (State.launch p1Launch).trace 1 := by
  refine ⟨⟨test_witness_launch, rfl, State.trace_undisturbed _⟩, ?_⟩
  obtain ⟨t, h, -⟩ := nextIs_elim (show nextIs (step (State.launch p1Launch)) (fun _ => true) = true by decide)
  exact reached_succ.mpr ⟨reached_zero _, t, h⟩

/-- RunEndsOrIsRefused: an undisturbed run from a legal state with a marked end. -/
theorem test_witness_end :
    Undisturbed v3State.trace ∧ (v3State.trace 0).Inv ∧ (v3State.trace 0).haltPc ≠ none :=
  ⟨v3State.trace_undisturbed, oneWord_inv _ _, by decide⟩

/-- StraightLineRunsToItsEnd: an undisturbed run of one instruction, `k = 1`. -/
theorem test_witness_straight :
    Undisturbed v3State.trace ∧ v3State.trace 0 = v3State ∧ v3State.Inv ∧ v3State.vmxEnabled = true ∧ 4 * 1 < 2 ^ v3State.pcBits ∧
    v3State.haltPc = some (v3State.addrAdd v3State.pc (4 * 1)) ∧
    v3State.memRead (v3State.addrAdd v3State.pc (4 * 0)) 4 = some 0x1063200A#32 ∧
    decodeWord 0x1063200A = .ok (.vaddfp 3 3 4) :=
  ⟨v3State.trace_undisturbed, rfl, oneWord_inv _ _, by decide, by decide, by decide, by decide, by decide⟩

/-- UndisturbedRunIsTheMachines: both clauses at the last word before the end, which runs, and the address of the end itself,
where a run of one step more stops. -/
theorem test_witness_words :
    Undisturbed v3State.trace ∧ (v3State.trace 0).Inv ∧ Reached v3State.trace (0 + 1) ∧ v3State.vmxEnabled = true ∧
    v3State.haltPc ≠ some (v3State.addrAdd v3State.pc (4 * 0)) ∧
    v3State.memRead (v3State.addrAdd v3State.pc (4 * 0)) 4 = some 0x1063200A#32 ∧
    decodeWord 0x1063200A = .ok (.vaddfp 3 3 4) ∧
    v3State.haltPc = some (v3State.addrAdd v3State.pc (4 * 1)) :=
  ⟨v3State.trace_undisturbed, oneWord_inv _ _, test_witness_undisturbed.2.2.1, by decide, by decide, by decide, by decide,
    by decide⟩

/-- PlacedWordRuns: the state after reset. -/
theorem test_witness_placed :
    (Instr.vaddfp 31 0 31).WellFormed ∧ State.reset.pc % 4 = 0 ∧ 2 ≤ State.reset.pcBits := by decide

/-- The lane statements with hypotheses: a lane of every class at its boundary. -/
theorem test_witness_classes :
    classOf 0x80000000 = .zero ∧ classOf 0x00000001 = .denormal ∧ classOf 0x807FFFFF = .denormal ∧
    classOf 0x00800000 = .normal ∧ classOf 0x7F7FFFFF = .normal ∧ classOf 0xFF800000 = .infinity ∧
    classOf 0x7F800001 = .nan ∧ classOf 0xFFFFFFFF = .nan ∧ isFinite 0x7F7FFFFF = true ∧ isFinite 0x807FFFFF = true := by
  decide

/-- RoundingMatchesRationals: the integers nearest to zero are not zero. -/
theorem test_witness_rounding : (1 : ℤ) ≠ 0 ∧ (-1 : ℤ) ≠ 0 := by decide

/-- SumMatchesRationals: an exact sum that is zero and one that is not, of lanes that are not both zeros; two infinities of
one sign and of both. -/
theorem test_witness_sum :
    laneVal 0x3F800000 + laneVal 0xBF800000 = 0 ∧ laneVal 0x3F800000 + laneVal 0x00000001 ≠ 0 ∧
    ¬(classOf 0x3F800000 = .zero ∧ classOf 0xBF800000 = .zero) ∧ (0x7F800000 : Lane) ≠ 0xFF800000 ∧
    (0x00000000 : Lane) ≠ 0x80000000 ∧ classOf 0x7F800000 = .infinity := by decide +kernel

/-- SumIsCorrectlyRounded, DenormalSumIsExact: a finite sum that is a tie, and a denormal sum. -/
theorem test_witness_correct :
    isFinite (fadd32 0x3F800000 0x33800000) = true ∧ classOf (fadd32 0x00C00000 0x80800000) = .denormal := by decide

/-- OverflowExactlyFromThreshold: the least sum that overflows, the greatest that does not, on both sides. -/
theorem test_witness_overflow :
    fadd32 0x7F7FFFFF 0x73000000 = infinityLane false ∧ fadd32 0x7F7FFFFF 0x72FFFFFF = 0x7F7FFFFF ∧
    fadd32 0xFF7FFFFF 0xF3000000 = infinityLane true := by decide

/-- NjOnlyDecidesTheFlush, LaneAddCommutes: no denormal appears; and a result that is no NaN. -/
theorem test_witness_nj :
    classOf 0x00800000 ≠ .denormal ∧ classOf (fadd32 0x00800000 0x00800000) ≠ .denormal ∧
    classOf (laneAdd 0x00800000 0x80000001 false) ≠ .nan := by decide

/-- DoublingIsExact: the exponents where its clauses meet. -/
theorem test_witness_doubling :
    classOf 0x7EFFFFFF = .normal ∧ expOf 0x7EFFFFFF = 253 ∧ classOf 0xFF000000 = .normal ∧ expOf 0xFF000000 = 254 ∧
    classOf 0x00000000 = .zero ∧ classOf 0x80000001 = .denormal ∧ classOf 0xFF800000 = .infinity := by decide

end Sys2Proof.Tests
end

namespace Sys2Proof

/-! ### The fields of form VX (`30_encoding.md` R31) -/

@[simp] theorem regOfVx_toNat (f : BitVec 5) : (regOfVx f).toNat = f.toNat := by
  simp only [regOfVx, BitVec.toNat_setWidth]
  exact Nat.mod_eq_of_lt (by have := f.isLt; omega)

theorem eq_regOfVx_slice_iff (w : Word) (lo : Nat) (r : RegNo) :
    r = regOfVx (slice w lo 5) ↔ r.toNat = w.toNat / 2 ^ lo % 2 ^ 5 := by
  rw [← BitVec.toNat_inj, regOfVx_toNat, slice_toNat]

theorem decodeWord_eq_vaddfp_iff (w : Word) (d a b : RegNo) :
    decodeWord w = .ok (.vaddfp d a b) ↔ matchesVaddfp w = true ∧
      d = regOfVx (fieldVxVd w) ∧ a = regOfVx (fieldVxVa w) ∧ b = regOfVx (fieldVxVb w) := by
  constructor
  · intro h
    obtain ⟨hm, hi⟩ | ⟨-, hi⟩ := decodeWord_cases h
    · exact ⟨hm, Instr.vaddfp.inj hi⟩
    · cases hi
  · rintro ⟨hm, rfl, rfl, rfl⟩
    exact decodeWord_of_vaddfp hm

namespace Machine

/-- A register number is used directly as an index of the register file (`10_state.md` R11). -/
theorem State.getElem?_v_eq_readV (s : State) (r : RegNo) : s.v[r.toNat]? = some (s.readV r) :=
  Vector.getElem?_eq_getElem r.isLt

/-- Settles O5: the fixed fields are the pattern of `vaddfp`, and each register number is a slice of the word. -/
theorem vxFieldsAreRegisterIndices : Obligations.VxFieldsAreRegisterIndices := by
  refine ⟨fun w d a b => ?_, State.getElem?_v_eq_readV⟩
  rw [decodeWord_eq_vaddfp_iff, matchesVaddfp_iff, fieldVxVd, fieldVxVa, fieldVxVb]
  simp only [eq_regOfVx_slice_iff]
  tauto

end Machine

end Sys2Proof

namespace Sys2Proof.Machine

/-! ### Both instructions with the vector unit enabled (`40_vector_float_add.md` R46, R47) -/

theorem exec_of_enabled (i : Instr) {s : State} (h : s.vmxEnabled = true) :
    exec i s = .next (s.afterAdd i.dest i.srcA i.srcB) :=
  (exec_eq i s).trans (vectorFloatAdd_enabled h)

theorem State.addEffect_afterAdd (s : State) (d a b : RegNo) : AddEffect d a b s (s.afterAdd d a b) where
  result := s.afterAdd_readV_dest d a b
  others _ h := s.afterAdd_readV_ne a b h
  pc := rfl
  nj := rfl
  sat := rfl
  run := ⟨rfl, rfl, rfl, rfl⟩

/-! ### The next sequential instruction (`40_vector_float_add.md` R51) -/

/-- In a width below 2 the modulus divides 4 and the successor of an aligned address is 0. -/
theorem State.four_dvd_addrAdd_four (s : State) {a : Nat} (ha : 4 ∣ a) : 4 ∣ s.addrAdd a 4 := by
  rcases Nat.lt_or_ge s.pcBits 2 with hw | hw
  · have hm : 2 ^ s.pcBits ∣ 4 := pow_dvd_pow 2 hw.le
    have h0 : s.addrAdd a 4 = 0 := Nat.mod_eq_zero_of_dvd (hm.trans (Nat.dvd_add ha dvd_rfl))
    exact h0 ▸ dvd_zero 4
  · exact Nat.dvd_of_mod_eq_zero (s.addrAdd_four_aligned hw (Nat.mod_eq_zero_of_dvd ha))

/-- Settles O15: the addition advances `pc`, and the successor address is aligned in every width. -/
theorem pcGoesToNextInstruction : Obligations.PcGoesToNextInstruction := fun i s h =>
  ⟨_, exec_of_enabled i h, rfl, s.four_dvd_addrAdd_four⟩

/-! ### Lane by lane (`40_vector_float_add.md` R48) -/

theorem lane_setLane (x : VReg) (k j : Fin 4) (l : Lane) :
    lane (setLane x k l) j = if j = k then l else lane x j := by
  rw [setLane, lane_lanes]
  fin_cases j <;> simp [eq_comm]

@[simp] theorem State.writeV_readV_self (s : State) (r : RegNo) : s.writeV r (s.readV r) = s := by
  simp [State.writeV, State.readV, Vector.get_eq_getElem]

@[simp] theorem State.writeV_writeV_same (s : State) (r : RegNo) (x y : VReg) :
    (s.writeV r x).writeV r y = s.writeV r y := by
  simp [State.writeV]

@[simp] theorem State.addOneLane_nj (d a b : RegNo) (s : State) (k : Fin 4) : (s.addOneLane d a b k).nj = s.nj := rfl

theorem State.lane_addOneLane_dest (d a b : RegNo) (s : State) (k : Fin 4) :
    lane ((s.addOneLane d a b k).readV d) k = laneAdd (lane (s.readV a) k) (lane (s.readV b) k) s.nj := by
  rw [State.addOneLane, State.readV_writeV_same, lane_setLane, if_pos rfl]

/-- Adding lane `k` leaves the other lanes of every register, so a later lane still reads the old operands. -/
theorem State.lane_addOneLane_ne (d a b : RegNo) (s : State) {k j : Fin 4} (h : j ≠ k) (r : RegNo) :
    lane ((s.addOneLane d a b k).readV r) j = lane (s.readV r) j := by
  rw [State.addOneLane]
  by_cases hr : r = d
  · rw [hr, State.readV_writeV_same, lane_setLane, if_neg h]
  · rw [State.readV_writeV_ne _ _ hr]

/-- Adding some lanes one by one, each once, writes `v[VD]` alone: those lanes hold the sums of the old operands, the others
are as before. -/
theorem State.foldl_addOneLane (d a b : RegNo) (ks : List (Fin 4)) (hks : ks.Nodup) (s : State) :
    ∃ y, ks.foldl (State.addOneLane d a b) s = s.writeV d y ∧ ∀ j, lane y j =
      if j ∈ ks then laneAdd (lane (s.readV a) j) (lane (s.readV b) j) s.nj else lane (s.readV d) j := by
  induction ks generalizing s with
  | nil => exact ⟨s.readV d, by simp, by simp⟩
  | cons k ks ih =>
    obtain ⟨hk, hks⟩ := List.nodup_cons.mp hks
    obtain ⟨y, hy, hlane⟩ := ih hks (s.addOneLane d a b k)
    refine ⟨y, ?_, fun j => ?_⟩
    · rw [List.foldl_cons, hy, State.addOneLane, State.writeV_writeV_same]
    · rw [hlane]
      by_cases hj : j = k
      · subst hj
        simp [hk, State.lane_addOneLane_dest]
      · simp [hj, s.lane_addOneLane_ne d a b hj]

/-- All four lanes added in any order and the advance of `pc` are the one addition. -/
theorem State.advancePc_foldl_addOneLane (d a b : RegNo) (s : State) {order : List (Fin 4)}
    (h : order.Perm [0, 1, 2, 3]) :
    (order.foldl (State.addOneLane d a b) s).advancePc = s.afterAdd d a b := by
  have hall : ∀ j, j ∈ order := fun j => h.mem_iff.mpr (List.mem_finRange j)
  obtain ⟨y, hy, hlane⟩ := s.foldl_addOneLane d a b order (h.nodup_iff.mpr (List.nodup_finRange 4))
  rw [hy, State.afterAdd]
  congr 2
  exact vreg_ext fun j => by rw [hlane, if_pos (hall j), lane_mapLanes]

theorem State.lane_afterAdd_dest (s : State) (d a b : RegNo) (k : Fin 4) :
    lane ((s.afterAdd d a b).readV d) k = laneAdd (lane (s.readV a) k) (lane (s.readV b) k) s.nj := by
  rw [State.afterAdd_readV_dest, lane_mapLanes]

/-- Settles O16: each lane of the result is `LaneAdd` of the old lanes, and a lane done on its own does not disturb the
others. -/
theorem laneIndependenceAndAliasing : Obligations.LaneIndependenceAndAliasing := by
  refine ⟨fun i s s' t t' k ht ht' hnj ha hb => ?_, fun i s h => ?_, fun i s t order hp ht => ?_⟩
  · obtain ⟨-, rfl⟩ := exec_next ht
    obtain ⟨-, rfl⟩ := exec_next ht'
    rw [State.lane_afterAdd_dest, State.lane_afterAdd_dest, hnj, ha, hb]
  · exact ⟨_, exec_of_enabled i h, s.lane_afterAdd_dest _ _ _⟩
  · rw [State.advancePc_foldl_addOneLane _ _ _ _ hp]
    exact (exec_next ht).2

/-! ### `vaddfp` (`40_vector_float_add.md` R46) -/

/-- Every word of the pattern is `vaddfp` on the registers its three fields number. -/
theorem exists_decodeWord_eq_vaddfp {w : Word} (h : w &&& 0xFC0007FF#32 = 0x1000000A#32) :
    ∃ d a b, decodeWord w = .ok (.vaddfp d a b) ∧ d.toNat = w.toNat / 2 ^ 21 % 2 ^ 5 ∧
      a.toNat = w.toNat / 2 ^ 16 % 2 ^ 5 ∧ b.toNat = w.toNat / 2 ^ 11 % 2 ^ 5 :=
  ⟨_, _, _, decodeWord_of_vaddfp (beq_iff_eq.mpr h), (eq_regOfVx_slice_iff w 21 _).mp rfl,
    (eq_regOfVx_slice_iff w 16 _).mp rfl, (eq_regOfVx_slice_iff w 11 _).mp rfl⟩

@[simp] theorem mapLanes_lanes (f : Lane → Lane → Lane) (x0 x1 x2 x3 y0 y1 y2 y3 : Lane) :
    mapLanes f (lanes x0 x1 x2 x3) (lanes y0 y1 y2 y3) = lanes (f x0 y0) (f x1 y1) (f x2 y2) (f x3 y3) := by
  simp [mapLanes]

/-- The four lane sums of R46's example: a normal sum, an exact zero, an infinity, a denormal operand flushed. -/
theorem laneAdd_vaddfp_example :
    laneAdd 0x3F800000 0x3F000000 true = 0x3FC00000 ∧ laneAdd 0x40000000 0xC0000000 true = 0x00000000 ∧
    laneAdd 0x40400000 0x7F800000 true = 0x7F800000 ∧ laneAdd 0x40800000 0x000116C2 true = 0x40800000 := by
  decide

/-- Settles O10: the words of the pattern, the effect of the addition, and R46's example computed lane by lane. -/
theorem vaddfpRule : Obligations.VaddfpRule := by
  refine ⟨fun w => exists_decodeWord_eq_vaddfp, fun d a b s h => ⟨_, exec_of_enabled _ h, s.addEffect_afterAdd d a b⟩,
    by decide, fun s h hnj ha hb => ⟨_, exec_of_enabled _ h, ?_, s.afterAdd_readV_ne _ _ (by decide), rfl⟩⟩
  obtain ⟨h0, h1, h2, h3⟩ := laneAdd_vaddfp_example
  have hsum := s.afterAdd_readV_dest 3 3 4
  rwa [ha, hb, hnj, mapLanes_lanes, h0, h1, h2, h3] at hsum

end Sys2Proof.Machine

namespace Sys2Proof.Machine

/-! ### No exception (`60_exceptions.md` R60, R61) -/

theorem exec_of_disabled (i : Instr) {s : State} (h : s.vmxEnabled = false) : exec i s = .refused .vmxNotEnabled :=
  (exec_eq i s).trans (vectorFloatAdd_disabled h)

/-- The vector unit is enabled and the addition completes, or it is not and the instruction is refused: neither answer is a
fault. -/
theorem exec_ne_fault (i : Instr) (s : State) (f : Fault) : exec i s ≠ .fault f := by
  cases h : s.vmxEnabled with
  | false => rw [exec_of_disabled i h]; nofun
  | true => rw [exec_of_enabled i h]; nofun

/-- Settles O13: no answer of an instruction is a fault, and with the vector unit enabled the answer is the addition. -/
theorem noSynchronousException : Obligations.NoSynchronousException := fun i s =>
  ⟨exec_ne_fault i s, fun h => ⟨_, exec_of_enabled i h⟩⟩

end Sys2Proof.Machine

namespace Sys2Proof

/-! ### The fields of form VX128 (`30_encoding.md` R33) -/

theorem fieldVd128_toNat (w : Word) :
    (fieldVd128 w).toNat = (w.toNat / 2 ^ 2 % 2 ^ 2) * 2 ^ 5 + w.toNat / 2 ^ 21 % 2 ^ 5 := by
  simp only [fieldVd128, append_toNat, slice_toNat]

theorem fieldVa128_toNat (w : Word) : (fieldVa128 w).toNat =
    (w.toNat / 2 ^ 10 % 2) * 2 ^ 6 + (w.toNat / 2 ^ 5 % 2) * 2 ^ 5 + w.toNat / 2 ^ 16 % 2 ^ 5 := by
  simp only [fieldVa128, append_toNat, slice_toNat, Nat.reducePow]
  omega

theorem fieldVb128_toNat (w : Word) :
    (fieldVb128 w).toNat = (w.toNat % 2 ^ 2) * 2 ^ 5 + w.toNat / 2 ^ 11 % 2 ^ 5 := by
  simp only [fieldVb128, append_toNat, slice_toNat, pow_zero, Nat.div_one]

theorem decodeWord_eq_vaddfp128_iff (w : Word) (d a b : RegNo) :
    decodeWord w = .ok (.vaddfp128 d a b) ↔
      matchesVaddfp128 w = true ∧ d = fieldVd128 w ∧ a = fieldVa128 w ∧ b = fieldVb128 w := by
  constructor
  · intro h
    obtain ⟨-, hi⟩ | ⟨hm, hi⟩ := decodeWord_cases h
    · cases hi
    · exact ⟨hm, Instr.vaddfp128.inj hi⟩
  · rintro ⟨hm, rfl, rfl, rfl⟩
    exact decodeWord_of_vaddfp128 hm

/-! ### The two round trips (`30_encoding.md` section 9) -/

theorem fitsVx_iff (r : RegNo) : fitsVx r = true ↔ r.toNat < 32 := by
  rw [fitsVx, decide_eq_true_iff]

theorem wellFormed_vaddfp_iff (d a b : RegNo) :
    (Instr.vaddfp d a b).WellFormed ↔ d.toNat < 32 ∧ a.toNat < 32 ∧ b.toNat < 32 := by
  simp only [Instr.WellFormed, Instr.wellFormed, Bool.and_eq_true, fitsVx_iff, and_assoc]

/-- Each 5-bit field of the encoded word is the operand, which fits it. -/
theorem decodeWord_encodeVaddfp {d a b : RegNo} (h : (Instr.vaddfp d a b).WellFormed) :
    decodeWord (encodeVaddfp d a b) = .ok (.vaddfp d a b) := by
  obtain ⟨hd, ha, hb⟩ := (wellFormed_vaddfp_iff d a b).mp h
  rw [decodeWord_eq_vaddfp_iff, matchesVaddfp_iff, fieldVxVd, fieldVxVa, fieldVxVb]
  simp only [eq_regOfVx_slice_iff, encodeVaddfp_toNat]
  omega

theorem fields_encodeVaddfp128 (d a b : RegNo) : fieldVd128 (encodeVaddfp128 d a b) = d ∧
    fieldVa128 (encodeVaddfp128 d a b) = a ∧ fieldVb128 (encodeVaddfp128 d a b) = b := by
  refine ⟨?_, ?_, ?_⟩
  all_goals
    apply BitVec.eq_of_getLsbD_eq
    intro j hj
    simp only [fieldVd128, fieldVa128, fieldVb128, encodeVaddfp128, slice, BitVec.getLsbD_append,
      BitVec.getLsbD_extractLsb']
    interval_cases j <;> simp

/-- The pieces of each 7-bit number are put together again. -/
theorem decodeWord_encodeVaddfp128 (d a b : RegNo) :
    decodeWord (encodeVaddfp128 d a b) = .ok (.vaddfp128 d a b) := by
  obtain ⟨hd, ha, hb⟩ := fields_encodeVaddfp128 d a b
  exact (decodeWord_eq_vaddfp128_iff _ d a b).mpr
    ⟨beq_iff_eq.mpr (Laws.FixedBits.vaddfp128 d a b), hd.symm, ha.symm, hb.symm⟩

theorem encodeVaddfp_fields {w : Word} (h : matchesVaddfp w = true) :
    encodeVaddfp (regOfVx (fieldVxVd w)) (regOfVx (fieldVxVa w)) (regOfVx (fieldVxVb w)) = w := by
  obtain ⟨hop, hxo⟩ := (matchesVaddfp_iff w).mp h
  apply BitVec.eq_of_toNat_eq
  simp only [encodeVaddfp_toNat, regOfVx_toNat, fieldVxVd, fieldVxVa, fieldVxVb, slice_toNat]
  omega

theorem eq_of_and_eq_of_and_not_eq {x y m : Word} (h : x &&& m = y &&& m)
    (h' : x &&& ~~~m = y &&& ~~~m) : x = y := by
  have hsplit (z : Word) : z = z &&& m ||| z &&& ~~~m := by
    rw [← BitVec.and_or_distrib_left, BitVec.or_not_self, BitVec.and_allOnes]
  rw [hsplit x, h, h', ← hsplit y]

/-- The encoded word has the fixed bits of the pattern, and in every other place the bit of the field that was read there. -/
theorem encodeVaddfp128_fields {w : Word} (h : matchesVaddfp128 w = true) :
    encodeVaddfp128 (fieldVd128 w) (fieldVa128 w) (fieldVb128 w) = w := by
  refine eq_of_and_eq_of_and_not_eq (m := 0xFC0003D0#32)
    ((Laws.FixedBits.vaddfp128 _ _ _).trans (beq_iff_eq.mp h).symm) ?_
  apply BitVec.eq_of_getLsbD_eq
  intro j hj
  simp only [encodeVaddfp128, fieldVd128, fieldVa128, fieldVb128, slice, BitVec.getLsbD_append,
    BitVec.getLsbD_extractLsb', BitVec.getLsbD_and]
  interval_cases j <;> simp

/-- Settles O2: one round trip for each form. -/
theorem decodeOfEncode : Obligations.DecodeOfEncode
  | .vaddfp _ _ _, h => decodeWord_encodeVaddfp h
  | .vaddfp128 d a b, _ => decodeWord_encodeVaddfp128 d a b

/-- Settles O3: the word that matched a pattern is made of that pattern and its fields. -/
theorem encodeOfDecode : Obligations.EncodeOfDecode := by
  intro w i h
  obtain ⟨hm, rfl⟩ | ⟨hm, rfl⟩ := decodeWord_cases h
  · exact ⟨by simp [Instr.WellFormed, Instr.wellFormed, fitsVx_regOfVx], encodeVaddfp_fields hm⟩
  · exact ⟨rfl, encodeVaddfp128_fields hm⟩

/-! ### The formulas of the encoding procedure (`30_encoding.md` section 9) -/

/-- A field put above the bits so far adds its value at its place. -/
theorem or_shiftLeft_eq_add {x k : Nat} (y : Nat) (h : x < 2 ^ k) : x ||| y <<< k = x + y * 2 ^ k := by
  rw [Nat.or_comm, ← Nat.shiftLeft_add_eq_or_of_lt h, Nat.shiftLeft_eq, Nat.add_comm]

theorem encodeVaddfp_toNat_eq_or {d a b : RegNo} (hd : d.toNat < 32) (ha : a.toNat < 32)
    (hb : b.toNat < 32) : (encodeVaddfp d a b).toNat =
      0x1000000A ||| (d.toNat <<< 21) ||| (a.toNat <<< 16) ||| (b.toNat <<< 11) := by
  have horder (x y z : Nat) : 0x1000000A ||| x ||| y ||| z = 10 ||| z ||| y ||| x ||| 4 <<< 26 := by
    rw [show 0x1000000A = 10 ||| 4 <<< 26 from rfl]
    generalize 4 <<< 26 = op
    generalize 10 = xo
    ac_rfl
  rw [horder, or_shiftLeft_eq_add b.toNat (k := 11) (by decide), or_shiftLeft_eq_add a.toNat (by omega),
    or_shiftLeft_eq_add d.toNat (by omega), or_shiftLeft_eq_add 4 (by omega), encodeVaddfp_toNat]
  omega

theorem encodeVaddfp128_toNat_eq_or (d a b : RegNo) : (encodeVaddfp128 d a b).toNat =
    0x14000010 ||| ((d.toNat &&& 31) <<< 21) ||| ((a.toNat &&& 31) <<< 16) ||| ((b.toNat &&& 31) <<< 11)
      ||| (((a.toNat >>> 6) &&& 1) <<< 10) ||| (((a.toNat >>> 5) &&& 1) <<< 5)
      ||| (((d.toNat >>> 5) &&& 3) <<< 2) ||| ((b.toNat >>> 5) &&& 3) := by
  have horder (dl al bl ah am dh bh : Nat) : 0x14000010 ||| dl ||| al ||| bl ||| ah ||| am ||| dh ||| bh =
      bh ||| dh ||| 1 <<< 4 ||| am ||| ah ||| bl ||| al ||| dl ||| 5 <<< 26 := by
    rw [show 0x14000010 = 1 <<< 4 ||| 5 <<< 26 from rfl]
    generalize 1 <<< 4 = one
    generalize 5 <<< 26 = op
    ac_rfl
  have h31 (x : Nat) : x &&& 31 = x % 2 ^ 5 := Nat.and_two_pow_sub_one_eq_mod x 5
  have h3 (x : Nat) : x &&& 3 = x % 2 ^ 2 := Nat.and_two_pow_sub_one_eq_mod x 2
  rw [horder]
  simp only [h31, h3, Nat.and_one_is_mod, Nat.shiftRight_eq_div_pow]
  rw [or_shiftLeft_eq_add (k := 2) _ (by omega), or_shiftLeft_eq_add (k := 4) _ (by omega),
    or_shiftLeft_eq_add (k := 5) _ (by omega), or_shiftLeft_eq_add (k := 10) _ (by omega),
    or_shiftLeft_eq_add (k := 11) _ (by omega), or_shiftLeft_eq_add (k := 16) _ (by omega),
    or_shiftLeft_eq_add (k := 21) _ (by omega), or_shiftLeft_eq_add (k := 26) _ (by omega), encodeVaddfp128_toNat]
  omega

/-- Settles O4: the bits of both formulas, ordered by place, are the fields of the encoded word. -/
theorem encoderFormulas : Obligations.EncoderFormulas := by
  refine ⟨fun d a b hd ha hb => ?_, encodeVaddfp128_toNat_eq_or⟩
  rw [fitsVx_iff] at hd ha hb
  exact encodeVaddfp_toNat_eq_or hd ha hb

/-- Settles O6: each number is read off the field that the decoder assembled, and so is each of its high bits. -/
theorem vx128RegisterNumbers : Obligations.Vx128RegisterNumbers := by
  intro w d a b h
  obtain ⟨-, rfl, rfl, rfl⟩ := (decodeWord_eq_vaddfp128_iff w d a b).mp h
  refine ⟨fieldVd128_toNat w, fieldVa128_toNat w, fieldVb128_toNat w, ?_⟩
  simp only [fieldVd128, fieldVa128, fieldVb128, slice, Machine.sourceBit, BitVec.getLsbD_append,
    BitVec.getLsbD_extractLsb']
  simp

/-! ### The words of each form (`30_encoding.md` R34, R36) -/

theorem exists_decodeWord_eq_vaddfp_iff (w : Word) :
    (∃ d a b, decodeWord w = .ok (.vaddfp d a b)) ↔ matchesVaddfp w = true :=
  ⟨fun ⟨d, a, b, h⟩ => ((decodeWord_eq_vaddfp_iff w d a b).mp h).1, fun h => ⟨_, _, _, decodeWord_of_vaddfp h⟩⟩

theorem exists_decodeWord_eq_vaddfp128_iff (w : Word) :
    (∃ d a b, decodeWord w = .ok (.vaddfp128 d a b)) ↔ matchesVaddfp128 w = true :=
  ⟨fun ⟨d, a, b, h⟩ => ((decodeWord_eq_vaddfp128_iff w d a b).mp h).1, fun h => ⟨_, _, _, decodeWord_of_vaddfp128 h⟩⟩

theorem exists_decodeWord_eq_error_iff (w : Word) :
    (∃ e, decodeWord w = .error e) ↔ matchesVaddfp w = false ∧ matchesVaddfp128 w = false := by
  cases hvx : matchesVaddfp w with
  | true => simp [decodeWord_of_vaddfp hvx]
  | false =>
    cases hvx128 : matchesVaddfp128 w with
    | true => simp [decodeWord_of_vaddfp128 hvx128]
    | false => simp [decodeWord, hvx, hvx128]

/-- Settles O7: the two forms and the rejection are the three answers of the decoder. -/
theorem decodesExactlyThePatterns : Obligations.DecodesExactlyThePatterns := fun w =>
  ⟨(exists_decodeWord_eq_vaddfp_iff w).trans beq_iff_eq, (exists_decodeWord_eq_vaddfp128_iff w).trans beq_iff_eq,
    (exists_decodeWord_eq_error_iff w).trans (and_congr beq_eq_false_iff_ne beq_eq_false_iff_ne)⟩

/-! ### The table's words and the decoder on bytes (`30_encoding.md` R30) -/

theorem tableWord_toNat (w : Word) : tableWord 32 w.toNat = w := by
  rw [tableWord, Nat.mod_eq_of_lt w.isLt, BitVec.ofNat_toNat, BitVec.setWidth_eq]

theorem decodeTableWord_encode {i : Instr} (h : i.WellFormed) : decodeTableWord 32 (encode i).toNat = some i := by
  have hbytes := decode_bytesOfWord (encode i) []
  rw [decodeOfEncode i h, List.append_nil] at hbytes
  rw [decodeTableWord, tableWord_toNat, hbytes]

/-- For numbers below 32 the high pieces are 0, and the second formula is that of form VX with the other fixed bits. -/
theorem encodeVaddfp128_toNat_eq_or_of_fits {d a b : RegNo} (hd : d.toNat < 32) (ha : a.toNat < 32)
    (hb : b.toNat < 32) : (encodeVaddfp128 d a b).toNat =
      0x14000010 ||| (d.toNat <<< 21) ||| (a.toNat <<< 16) ||| (b.toNat <<< 11) := by
  have hlow {x : Nat} (h : x < 32) : x &&& 31 = x := by
    rw [Nat.and_two_pow_sub_one_eq_mod x 5, Nat.mod_eq_of_lt h]
  have hhigh {x : Nat} (h : x < 32) : x >>> 5 = 0 ∧ x >>> 6 = 0 := by
    simp only [Nat.shiftRight_eq_div_pow]
    omega
  simp [encodeVaddfp128_toNat_eq_or, hlow, hhigh, hd, ha, hb]

/-- Settles O9: the two formulas are the words of the two instructions, which have the one effect. -/
theorem twoEncodingsOneOperation : Obligations.TwoEncodingsOneOperation := by
  intro d a b hd ha hb vx vx128
  rw [fitsVx_iff] at hd ha hb
  have hvx : vx = (encode (.vaddfp d a b)).toNat := (encodeVaddfp_toNat_eq_or hd ha hb).symm
  have hvx128 : vx128 = (encode (.vaddfp128 d a b)).toNat := (encodeVaddfp128_toNat_eq_or_of_fits hd ha hb).symm
  refine ⟨.vaddfp d a b, .vaddfp128 d a b, ?_, ?_, fun s => ?_⟩
  · rw [hvx, decodeTableWord_encode ((wellFormed_vaddfp_iff d a b).mpr ⟨hd, ha, hb⟩)]
  · rw [hvx128, decodeTableWord_encode rfl]
  · rw [Machine.exec_eq, Machine.exec_eq]
    rfl

/-- Settles O1: each sample word, decoded. -/
theorem sampleWordsDecode : Obligations.SampleWordsDecode := by
  unfold Obligations.SampleWordsDecode
  decide

/-- The bytes of a decoded instruction: four of them, whose word decodes, and the rest. -/
theorem decode_eq_ok {bs rest : List Byte} {i : Instr} (h : decode bs = .ok (i, rest)) :
    ∃ b0 b1 b2 b3, bs = b0 :: b1 :: b2 :: b3 :: rest ∧ decodeWord (wordOfBytes b0 b1 b2 b3) = .ok i := by
  unfold decode at h
  split at h
  · split at h
    · cases h
      exact ⟨_, _, _, _, rfl, ‹_›⟩
    · cases h
  · cases h

/-- Settles O8: the decoder takes four bytes, and fewer do not match its first case. -/
theorem instructionIsFourBytes : Obligations.InstructionIsFourBytes := by
  refine ⟨fun bs rest i h => ?_, fun bs h => ?_, fun i => rfl⟩
  · obtain ⟨b0, b1, b2, b3, rfl, hi⟩ := decode_eq_ok h
    exact ⟨[b0, b1, b2, b3], rfl, rfl, fun rest' => by simp [decode, hi]⟩
  · unfold decode
    split
    · simp at h; omega
    · rfl

end Sys2Proof


namespace Sys2Proof.Machine

/-! ### The parameters of a run (`10_state.md` R10) -/

section

variable {s t : State} (h : s.SameRun t)
include h

theorem State.SameRun.pcBits_eq : t.pcBits = s.pcBits := h.1
theorem State.SameRun.imem_eq : t.imem = s.imem := h.2.1
theorem State.SameRun.haltPc_eq : t.haltPc = s.haltPc := h.2.2.1
theorem State.SameRun.vmxEnabled_eq : t.vmxEnabled = s.vmxEnabled := h.2.2.2

end

theorem State.SameRun.refl (s : State) : s.SameRun s := ⟨rfl, rfl, rfl, rfl⟩

theorem State.SameRun.trans {s t u : State} (h : s.SameRun t) (h' : t.SameRun u) : s.SameRun u :=
  ⟨h'.pcBits_eq.trans h.pcBits_eq, h'.imem_eq.trans h.imem_eq, h'.haltPc_eq.trans h.haltPc_eq,
    h'.vmxEnabled_eq.trans h.vmxEnabled_eq⟩

/-! ### The effect of both instructions (`40_vector_float_add.md` R46, R47) -/

/-- If an instruction answers a next state, it has the effect of the addition. -/
theorem addEffect_of_exec_next {i : Instr} {s t : State} (h : exec i s = .next t) :
    AddEffect i.dest i.srcA i.srcB s t := by
  obtain ⟨-, rfl⟩ := exec_next h
  exact s.addEffect_afterAdd _ _ _

/-- Settles O12: the frame is that of the addition, and it keeps the whole of `IMEM`. -/
theorem floatAddFrame : Obligations.FloatAddFrame := by
  intro i s t h
  obtain ⟨-, hothers, -, hnj, hsat, hrun⟩ := addEffect_of_exec_next h
  exact ⟨hothers, hnj, hsat, fun a => congrArg (Memory.read · a) hrun.imem_eq, hrun⟩

/-- Every word of the pattern is `vaddfp128` on the registers its pieces number. -/
theorem exists_decodeWord_eq_vaddfp128 {w : Word} (h : w &&& 0xFC0003D0#32 = 0x14000010#32) :
    ∃ d a b, decodeWord w = .ok (.vaddfp128 d a b) ∧
      d.toNat = (w.toNat / 2 ^ 2 % 2 ^ 2) * 2 ^ 5 + w.toNat / 2 ^ 21 % 2 ^ 5 ∧
      a.toNat = (w.toNat / 2 ^ 10 % 2) * 2 ^ 6 + (w.toNat / 2 ^ 5 % 2) * 2 ^ 5 + w.toNat / 2 ^ 16 % 2 ^ 5 ∧
      b.toNat = (w.toNat % 2 ^ 2) * 2 ^ 5 + w.toNat / 2 ^ 11 % 2 ^ 5 :=
  ⟨_, _, _, decodeWord_of_vaddfp128 (beq_iff_eq.mpr h), fieldVd128_toNat w, fieldVa128_toNat w, fieldVb128_toNat w⟩

/-- The four lane sums of R47's example, all of normal lanes. -/
theorem laneAdd_vaddfp128_example :
    laneAdd 0x3F800000 0x41200000 true = 0x41300000 ∧ laneAdd 0x40000000 0x41A00000 true = 0x41B00000 ∧
    laneAdd 0x40400000 0x41F00000 true = 0x42040000 ∧ laneAdd 0x40800000 0x42200000 true = 0x42300000 := by
  decide

/-- Settles O11: the words of the pattern and no others, the effect of the addition, which `vaddfp` shares, and R47's
example computed lane by lane. -/
theorem vaddfp128Rule : Obligations.Vaddfp128Rule := by
  refine ⟨fun w => exists_decodeWord_eq_vaddfp128, fun w hw d a b h => hw ?_,
    fun d a b s h => ⟨_, exec_of_enabled _ h, s.addEffect_afterAdd d a b⟩, fun d a b s _ _ _ => ?_, by decide,
    fun s h hnj ha hb => ⟨_, exec_of_enabled _ h, ?_, rfl⟩⟩
  · exact beq_iff_eq.mp ((decodeWord_eq_vaddfp128_iff w d a b).mp h).1
  · rw [exec_eq, exec_eq]
    rfl
  · obtain ⟨h0, h1, h2, h3⟩ := laneAdd_vaddfp128_example
    have hsum := s.afterAdd_readV_dest 64 1 2
    rwa [ha, hb, hnj, mapLanes_lanes, h0, h1, h2, h3] at hsum

/-! ### When a step answers what (`70_reset_and_hazards.md` R72) -/

theorem step_of_final {s : State} (h : s.Final) : step s = .fault .runOver := by
  rw [State.Final] at h
  rw [step, if_pos h]

theorem step_of_fetch_error {s : State} {r : Refusal} (hf : ¬s.Final) (h : s.fetch = .error r) : step s = .refused r := by
  rw [State.Final] at hf
  rw [step, if_neg hf, h]

theorem step_of_decode_error {s : State} {w : Word} {e : DecodeError} (hf : ¬s.Final) (h : s.fetch = .ok w)
    (he : decodeWord w = .error e) : step s = .refused .notSpecified := by
  rw [State.Final] at hf
  simp only [step, if_neg hf, h, he]

theorem step_of_at {s : State} {i : Instr} (hf : ¬s.Final) (h : s.At i) : step s = exec i s := by
  obtain ⟨w, hw, hi⟩ := h
  rw [State.Final] at hf
  simp only [step, if_neg hf, hw, hi]

theorem State.fetch_of_misaligned {s : State} (h : s.pc % 4 ≠ 0) : s.fetch = .error .fetchMisaligned := by
  rw [State.fetch, if_neg h]

theorem State.fetch_of_memRead_none {s : State} (h : s.pc % 4 = 0) (hm : s.memRead s.pc 4 = none) :
    s.fetch = .error .fetchOutsideImem := by
  rw [State.fetch, if_pos h, hm]

/-- A byte outside `IMEM` leaves the word without a value. -/
theorem State.memRead_four_eq_none {s : State} {a k : Nat} (hk : k < 4) (h : s.readByte (s.addrAdd a k) = none) :
    s.memRead a 4 = none := by
  rw [Option.eq_none_iff_forall_ne_some]
  intro w hw
  obtain ⟨b0, b1, b2, b3, h0, h1, h2, h3, -⟩ := (s.memRead_four a w).mp hw
  interval_cases k <;> simp_all

/-- Settles O21: `step` runs the decoded instruction. -/
theorem stepRunsDecoded : Obligations.StepRunsDecoded := fun _ _ => step_of_at

/-- Settles O22: one clause for each test that `step` makes before the instruction. -/
theorem stepWithoutInstruction : Obligations.StepWithoutInstruction := fun _ =>
  ⟨⟨step_of_final, fun h => (step_fault h).1⟩,
    fun hf ha => step_of_fetch_error hf (State.fetch_of_misaligned ha),
    fun hf ha ⟨_, hk, hb⟩ => step_of_fetch_error hf (State.fetch_of_memRead_none ha (State.memRead_four_eq_none hk hb)),
    fun _ _ hf hw he => step_of_decode_error hf hw he⟩

/-- Settles O14: with the vector unit disabled `exec` is refused, and a step that answers a next state needs it enabled. -/
theorem vectorUnitDisabledRefused : Obligations.VectorUnitDisabledRefused := by
  refine fun s h => ⟨fun i => exec_of_disabled i h, fun t ht => ?_⟩
  obtain ⟨-, _, _, -, -, hen, -⟩ := step_next ht
  rw [h] at hen
  cases hen

/-- Settles O20: the word of a successful fetch is the big-endian number of its four bytes. -/
theorem fetchIsBigEndianWord : Obligations.FetchIsBigEndianWord := by
  intro s w
  rw [State.fetch_ok, State.memRead_four]
  simp only [← wordOfBytes_toNat, BitVec.toNat_inj]

/-! ### What every step keeps (`10_state.md` R10, R14) -/

theorem AddEffect.keepsInv {vd va vb : RegNo} {s t : State} (h : AddEffect vd va vb s t) (hs : s.Inv) : t.Inv := by
  have hbits := h.run.pcBits_eq
  have himem := h.run.imem_eq
  have hpc : t.pc = s.addrAdd s.pc 4 := h.pc
  exact {
    width := hbits ▸ hs.width
    pc := by rw [hpc, hbits]; exact ⟨s.addrAdd_lt _ _, s.addrAdd_four_aligned hs.width hs.pc.2⟩
    halt := by rw [h.run.haltPc_eq, hbits]; exact hs.halt
    canonical := himem ▸ hs.canonical
    inSpace := by rw [himem, hbits]; exact hs.inSpace }

/-- A step that answers a next state ran the addition of the word at `pc`. -/
theorem step_next_addEffect {s t : State} (h : step s = .next t) :
    ∃ i, s.At i ∧ AddEffect i.dest i.srcA i.srcB s t := by
  obtain ⟨-, w, i, hw, hi, -, rfl⟩ := step_next h
  exact ⟨i, ⟨w, hw, hi⟩, s.addEffect_afterAdd _ _ _⟩

/-- Settles O23: a step is an addition, which moves `pc` to the next aligned address and keeps the rest. -/
theorem stepKeepsInv : Obligations.StepKeepsInv := by
  intro s t hs h
  obtain ⟨i, -, heff⟩ := step_next_addEffect h
  exact heff.keepsInv hs

/-- VSCR and the parameters of the run are the same in both states. -/
def State.SameVscrAndRun (s t : State) : Prop :=
  t.nj = s.nj ∧ t.sat = s.sat ∧ s.SameRun t

theorem step_sameVscrAndRun {s t : State} (h : step s = .next t) : s.SameVscrAndRun t := by
  obtain ⟨i, -, heff⟩ := step_next_addEffect h
  exact ⟨heff.nj, heff.sat, heff.run⟩

theorem Undisturbed.sameVscrAndRun {tr : Nat → State} (h : Undisturbed tr) {n : Nat} (hn : Reached tr n) :
    (tr 0).SameVscrAndRun (tr n) := by
  refine h.induction (P := (tr 0).SameVscrAndRun) ⟨rfl, rfl, State.SameRun.refl _⟩ (fun s t hs ht => ?_) n hn
  obtain ⟨hnj, hsat, hrun⟩ := hs
  obtain ⟨hnj', hsat', hrun'⟩ := step_sameVscrAndRun ht
  exact ⟨hnj'.trans hnj, hsat'.trans hsat, hrun.trans hrun'⟩

/-- Settles O26: the addition of one step keeps them, and so does every step of the run. -/
theorem runKeepsVscrAndParameters : Obligations.RunKeepsVscrAndParameters :=
  ⟨fun _ _ => step_sameVscrAndRun, fun _ htr _ => htr.sameVscrAndRun⟩

/-- Settles O25: reset sets NJ, and an undisturbed run keeps it. -/
theorem njSetAfterReset : Obligations.NjSetAfterReset :=
  ⟨rfl, fun _ htr h0 _ hn => (htr.sameVscrAndRun hn).1.trans h0⟩

theorem Launch.Legal.inv {l : Launch} (h : l.Legal) : (State.launch l).Inv where
  width := h.width
  pc := h.entry
  halt := by rintro _ ⟨⟩; exact h.halt
  canonical := h.canonical
  inSpace := h.inSpace

theorem State.reset_inv : State.reset.Inv where
  width := show 2 ≤ 32 by decide
  pc := show 0 < 2 ^ 32 ∧ 0 % 4 = 0 by decide
  halt := nofun
  canonical := State.reset_imem_wf
  inSpace := nofun

/-- Settles O24: reset meets each condition, and the launch premises are the others. -/
theorem resetAndLaunchInv : Obligations.ResetAndLaunchInv := ⟨State.reset_inv, fun _ => Launch.Legal.inv⟩

end Sys2Proof.Machine


namespace Sys2Proof.Machine

/-! ### Different addresses (`00_scope.md` R7) -/

/-- Offsets below the size of the address space lead to different addresses. -/
theorem State.addrAdd_inj (s : State) (a : Nat) {j k : Nat} (hj : j < 2 ^ s.pcBits) (hk : k < 2 ^ s.pcBits) :
    s.addrAdd a j = s.addrAdd a k ↔ j = k := by
  refine ⟨fun h => ?_, fun h => h ▸ rfl⟩
  exact Nat.ModEq.eq_of_lt_of_lt (Nat.ModEq.add_left_cancel' a h) hj hk

/-! ### Bytes written to memory (`20_memory.md` R21) -/

@[simp] theorem State.readByte_writeByte_same (s : State) (a : Nat) (b : Byte) :
    (s.writeByte a b).readByte a = some b :=
  Memory.read_write_same s.imem a b

@[simp] theorem State.readByte_writeByte_ne (s : State) {a a' : Nat} (b : Byte) (h : a' ≠ a) :
    (s.writeByte a b).readByte a' = s.readByte a' :=
  Memory.read_write_ne s.imem b h

theorem slice_slice {n : Nat} (x : BitVec n) {lo len lo' len' : Nat} (h : lo' + len' ≤ len) :
    slice (slice x lo len) lo' len' = slice x (lo + lo') len' := by
  apply BitVec.eq_of_getLsbD_eq
  intro j hj
  simp [slice, hj, show lo' + j < len by omega, Nat.add_assoc]

/-- Where the `n` addresses differ, the byte at offset `k` is the `k`-th of the value, the most significant first. -/
theorem State.readByte_memWrite (s : State) (a n : Nat) (x : BitVec (8 * n)) {k : Nat} (hk : k < n)
    (hn : n ≤ 2 ^ s.pcBits) :
    (s.memWrite a n x).readByte (s.addrAdd a k) = some (slice x (8 * (n - 1 - k)) 8) := by
  induction n with
  | zero => exact absurd hk (Nat.not_lt_zero k)
  | succ n ih =>
    rw [State.memWrite]
    rcases Nat.lt_succ_iff_lt_or_eq.mp hk with hlt | rfl
    · have hne : s.addrAdd a k ≠ s.addrAdd a n := fun e => hlt.ne ((s.addrAdd_inj a (by omega) (by omega)).mp e)
      rw [State.readByte_writeByte_ne _ _ hne, ih _ hlt (by omega), slice_slice _ (by omega)]
      congr 2
      omega
    · simp

theorem lane_eq_wordOfBytes (x : VReg) (i : Fin 4) : lane x i =
    wordOfBytes (slice x (96 - 32 * i + 24) 8) (slice x (96 - 32 * i + 16) 8) (slice x (96 - 32 * i + 8) 8)
      (slice x (96 - 32 * i) 8) := by
  rw [lane, ← wordOfBytes_bytesOfWord (slice x (96 - 32 * i.val) 32)]
  simp only [slice_slice x (show 24 + 8 ≤ 32 by decide), slice_slice x (show 16 + 8 ≤ 32 by decide),
    slice_slice x (show 8 + 8 ≤ 32 by decide), slice_slice x (show 0 + 8 ≤ 32 by decide), Nat.add_zero]

/-- Settles O18: the slices as numbers, a lane as the word of its bytes, and the bytes of a value written to memory. -/
theorem registerViews : Obligations.RegisterViews := by
  refine ⟨fun x i => slice_toNat x _ 32, fun x k => slice_toNat x _ 8,
    fun x => ⟨lane_eq_wordOfBytes x 0, lane_eq_wordOfBytes x 1, lane_eq_wordOfBytes x 2, lane_eq_wordOfBytes x 3⟩,
    fun s ea x k hw => ?_⟩
  have hspace : 16 ≤ 2 ^ s.pcBits := Nat.pow_le_pow_right (n := 2) (by decide) hw
  rw [State.readByte_memWrite s ea 16 x k.isLt hspace, byteOf]
  congr 2
  omega

/-! ### The canonical form (`20_memory.md` R20) -/

theorem Memory.read_eq_none {m : Memory} {a : Nat} (h : ∀ c ∈ m, c.1 ≠ a) : Memory.read m a = none := by
  induction m with
  | nil => rfl
  | cons c m ih =>
    obtain ⟨hc, hm⟩ := List.forall_mem_cons.mp h
    rw [Memory.read, if_neg hc, ih hm]

/-- A canonical memory lists exactly what it reads. -/
theorem Memory.mem_iff_read {m : Memory} (h : Memory.wf m) (a : Nat) (b : Byte) :
    (a, b) ∈ m ↔ Memory.read m a = some b := by
  induction m with
  | nil => simp
  | cons c m ih =>
    obtain ⟨k, d⟩ := c
    obtain ⟨hk, hm⟩ := Memory.wf_cons.mp h
    rw [Memory.read, List.mem_cons, ih hm]
    by_cases ha : k = a
    · subst ha
      have hnone : Memory.read m k = none := Memory.read_eq_none fun c hc => (hk c hc).ne'
      simp [hnone, eq_comm]
    · simp [ha, Ne.symm ha]

/-- Settles O19: both lists are sorted and have the same members. -/
theorem canonicalMemoryUnique : Obligations.CanonicalMemoryUnique := by
  intro m m' h h' hread
  have hirrefl : Std.Irrefl fun c d : Host.Cell => c.1 < d.1 := ⟨fun c => lt_irrefl c.1⟩
  have hantisymm : Std.Antisymm fun c d : Host.Cell => c.1 < d.1 := ⟨fun _ _ hcd hdc => absurd hdc hcd.asymm⟩
  refine (List.pairwise_map.mp h).eq_of_mem_iff (List.pairwise_map.mp h') fun ⟨a, b⟩ => ?_
  rw [Memory.mem_iff_read h, Memory.mem_iff_read h', hread]

/-! ### The placing of a word (`70_reset_and_hazards.md` R75) -/

theorem State.placeWord_pc (s : State) (w : Word) : (s.placeWord w).pc = s.pc := s.memWrite_pc s.pc 4 w

theorem State.placeWord_v (s : State) (w : Word) : (s.placeWord w).v = s.v := s.memWrite_v s.pc 4 w

theorem State.placeWord_not_final (s : State) (w : Word) : ¬(s.placeWord w).Final := by
  rw [State.Final, State.placeWord_pc, State.placeWord]
  simp only
  split_ifs with h
  · nofun
  · exact h

theorem State.placeWord_memRead (s : State) (w : Word) (hw : 2 ≤ s.pcBits) :
    (s.placeWord w).memRead s.pc 4 = some w := by
  have hspace : 4 ≤ 2 ^ s.pcBits := Nat.pow_le_pow_right (n := 2) (by decide) hw
  have hbyte (k : Nat) (hk : k < 4) :
      (s.placeWord w).readByte ((s.placeWord w).addrAdd s.pc k) = some (slice w (8 * (4 - 1 - k)) 8) := by
    rw [← State.readByte_memWrite s s.pc 4 w hk hspace, ← State.memWrite_addrAdd s s.pc 4 w]
    rfl
  exact (State.memRead_four _ _ _).mpr ⟨_, _, _, _, hbyte 0 (by decide), hbyte 1 (by decide), hbyte 2 (by decide),
    hbyte 3 (by decide), (wordOfBytes_bytesOfWord w).symm⟩

/-- Settles O29: the placed word is the one fetched, and it decodes to the instruction it encodes. -/
theorem placedWordRuns : Obligations.PlacedWordRuns := by
  intro s i hi hpc hw
  rw [State.withFetchWord, tableWord_toNat]
  have hfetch : (s.placeWord (encode i)).fetch = .ok (encode i) :=
    State.fetch_ok.mpr ⟨by rwa [State.placeWord_pc], by rw [State.placeWord_pc, State.placeWord_memRead s _ hw]⟩
  exact ⟨step_of_at (s.placeWord_not_final _) ⟨_, hfetch, decodeOfEncode i hi⟩, s.placeWord_v _, s.placeWord_pc _⟩

/-! ### What the fetch depends on (`20_memory.md` R22) -/

theorem State.SameRun.addrAdd {s t : State} (h : s.SameRun t) (a k : Nat) : t.addrAdd a k = s.addrAdd a k := by
  rw [State.addrAdd, h.pcBits_eq, State.addrAdd]

theorem State.SameRun.memRead {s t : State} (h : s.SameRun t) (a n : Nat) : t.memRead a n = s.memRead a n := by
  induction n with
  | zero => rfl
  | succ n ih => rw [State.memRead, State.memRead, ih, h.addrAdd, State.readByte, State.readByte, h.imem_eq]

theorem State.SameRun.fetch {s t : State} (h : s.SameRun t) (hpc : t.pc = s.pc) : t.fetch = s.fetch := by
  rw [State.fetch, State.fetch, hpc, h.memRead]

theorem State.SameRun.at_of_at {s t : State} (h : s.SameRun t) (hpc : t.pc = s.pc) {i : Instr} (hi : s.At i) :
    t.At i := by
  rwa [State.At, h.fetch hpc]

theorem State.SameRun.final_iff {s t : State} (h : s.SameRun t) (hpc : t.pc = s.pc) : t.Final ↔ s.Final := by
  rw [State.Final, State.Final, hpc, h.haltPc_eq]

/-- A step answers a next state exactly at an instruction that is not the end, with the vector unit enabled. -/
theorem step_next_iff {s : State} :
    (∃ t, step s = .next t) ↔ s.vmxEnabled = true ∧ ¬s.Final ∧ ∃ i, s.At i := by
  constructor
  · rintro ⟨t, ht⟩
    obtain ⟨hf, w, i, hw, hi, hen, -⟩ := step_next ht
    exact ⟨hen, hf, i, w, hw, hi⟩
  · rintro ⟨hen, hf, i, hi⟩
    exact ⟨_, (step_of_at hf hi).trans (exec_of_enabled i hen)⟩

theorem not_final_of_step_next {s t : State} (h : step s = .next t) : ¬s.Final := (step_next h).1

/-- A step at an instruction that answers a next state is that instruction's. -/
theorem step_at_next {s t : State} {i : Instr} (hi : s.At i) (h : step s = .next t) : exec i s = .next t := by
  rw [← step_of_at (not_final_of_step_next h) hi, h]

/-! ### Form VX and the low registers (`10_state.md` R11) -/

/-- The addition on low registers reads low registers and NJ alone. -/
theorem State.AgreeLow.afterAdd {s s' : State} (h : s.AgreeLow s') {d a b : RegNo} (ha : a.toNat < 32)
    (hb : b.toNat < 32) : (s.afterAdd d a b).AgreeLow (s'.afterAdd d a b) := by
  obtain ⟨hv, hnj, hpc, hrun⟩ := h
  refine ⟨fun r hr => ?_, hnj, ?_, hrun⟩
  · by_cases hrd : r = d
    · rw [hrd, State.afterAdd_readV_dest, State.afterAdd_readV_dest, hnj, hv a ha, hv b hb]
    · rw [State.afterAdd_readV_ne _ _ _ hrd, State.afterAdd_readV_ne _ _ _ hrd, hv r hr]
  · rw [State.afterAdd_pc, State.afterAdd_pc, hpc, hrun.addrAdd]

theorem State.At.wellFormed {s : State} {i : Instr} (h : s.At i) : i.WellFormed := by
  obtain ⟨w, -, hi⟩ := h
  exact (encodeOfDecode w i hi).1

/-- Settles O17: the fields of a `vaddfp` word number low registers, so the addition neither writes nor reads a high one. -/
theorem vxStaysInLowRegisters : Obligations.VxStaysInLowRegisters := by
  intro s t d a b hat ht
  obtain ⟨hd, ha, hb⟩ := (wellFormed_vaddfp_iff d a b).mp hat.wellFormed
  obtain ⟨hen, rfl⟩ := exec_next (step_at_next hat ht)
  refine ⟨fun r hr => State.afterAdd_readV_ne _ _ _ ?_, fun s' hs' => ⟨s'.afterAdd d a b, ?_, hs'.afterAdd ha hb⟩⟩
  · rintro rfl
    exact absurd hd (Nat.not_lt.mpr hr)
  · obtain ⟨-, -, hpc, hrun⟩ := hs'
    have hf : ¬s'.Final := mt (hrun.final_iff hpc).mp (not_final_of_step_next ht)
    rw [step_of_at hf (hrun.at_of_at hpc hat), exec_of_enabled _ (hrun.vmxEnabled_eq.trans hen)]
    rfl

end Sys2Proof.Machine


namespace Sys2Proof.Machine

/-! ### The machine's own run (`70_reset_and_hazards.md` R71, R72) -/

/-- A run of one step more ends with a step. -/
theorem core_run_succ_iff {n : Nat} {s t : State} : Sys2Proof.core.run (n + 1) s = .next t ↔
    ∃ u : State, Sys2Proof.core.run n s = .next u ∧ step u = .next t := by
  induction n generalizing s with
  | zero =>
    constructor
    · intro h
      obtain ⟨s', hs', ht⟩ := core_run_succ_next h
      cases ht
      exact ⟨s, rfl, hs'⟩
    · rintro ⟨u, hu, ht⟩
      cases hu
      exact core_run_succ_of_next 0 ht
  | succ n ih =>
    constructor
    · intro h
      obtain ⟨s', hs', ht⟩ := core_run_succ_next h
      obtain ⟨u, hu, ht⟩ := ih.mp ht
      exact ⟨u, (core_run_succ_of_next n hs').trans hu, ht⟩
    · rintro ⟨u, hu, ht⟩
      obtain ⟨s', hs', hu⟩ := core_run_succ_next hu
      exact (core_run_succ_of_next (n + 1) hs').trans (ih.mpr ⟨u, hu, ht⟩)

/-- The machine runs along an undisturbed run as far as that comes. -/
theorem Undisturbed.run_eq_next_iff {tr : Nat → State} (h : Undisturbed tr) {n : Nat} {t : State} :
    Sys2Proof.core.run n (tr 0) = .next t ↔ Reached tr n ∧ tr n = t := by
  induction n generalizing t with
  | zero =>
    exact ⟨fun ht => ⟨reached_zero tr, Host.Outcome.next.inj ht⟩, fun ⟨_, ht⟩ => congrArg Host.Outcome.next ht⟩
  | succ n ih =>
    rw [core_run_succ_iff, reached_succ]
    constructor
    · rintro ⟨u, hu, ht⟩
      obtain ⟨hn, rfl⟩ := ih.mp hu
      exact ⟨⟨hn, t, ht⟩, h n t ht⟩
    · rintro ⟨⟨hn, ht⟩, rfl⟩
      exact ⟨tr n, ih.mpr ⟨hn, rfl⟩, h.step_eq ht⟩

/-! ### The n-th state of a run (`70_reset_and_hazards.md` R70, premise 5) -/

section

variable {tr : Nat → State} (h : Undisturbed tr) (h0 : (tr 0).Inv)
include h h0

theorem Undisturbed.inv {n : Nat} (hn : Reached tr n) : (tr n).Inv := h.induction h0 stepKeepsInv n hn

omit h0 in
theorem Undisturbed.sameRun {n : Nat} (hn : Reached tr n) : (tr 0).SameRun (tr n) := by
  obtain ⟨-, -, hrun⟩ := h.sameVscrAndRun hn
  exact hrun

/-- Every instruction before it moved `pc` by 4. -/
theorem Undisturbed.pc_eq {n : Nat} (hn : Reached tr n) : (tr n).pc = (tr 0).addrAdd (tr 0).pc (4 * n) := by
  induction n with
  | zero => exact (Nat.mod_eq_of_lt h0.pc.1).symm
  | succ n ih =>
    obtain ⟨hn, ht⟩ := reached_succ.mp hn
    obtain ⟨i, -, heff⟩ := step_next_addEffect (h.step_eq ht)
    rw [heff.pc, ih hn, (h.sameRun hn).pcBits_eq, State.addrAdd, State.addrAdd, Nat.mod_add_mod, Nat.mul_succ, Nat.add_assoc]

theorem Undisturbed.final_iff {n : Nat} (hn : Reached tr n) :
    (tr n).Final ↔ (tr 0).haltPc = some ((tr 0).addrAdd (tr 0).pc (4 * n)) := by
  rw [State.Final, h.pc_eq h0 hn, (h.sameRun hn).haltPc_eq]

theorem Undisturbed.fetch_ok_iff {n : Nat} (hn : Reached tr n) {w : Word} :
    (tr n).fetch = .ok w ↔ (tr 0).memRead ((tr 0).addrAdd (tr 0).pc (4 * n)) 4 = some w := by
  rw [State.fetch_ok, h.pc_eq h0 hn, (h.sameRun hn).memRead, ← h.pc_eq h0 hn]
  exact and_iff_right (h.inv h0 hn).pc.2

end

/-- The address of the `j`-th instruction of a run from `s` is not the end and holds a word that decodes, and the vector unit
is enabled. -/
def State.RunsAt (s : State) (j : Nat) : Prop :=
  s.vmxEnabled = true ∧ s.haltPc ≠ some (s.addrAdd s.pc (4 * j)) ∧
    ∃ w i, s.memRead (s.addrAdd s.pc (4 * j)) 4 = some w ∧ decodeWord w = .ok i

/-- Whether the n-th step answers a next state is seen in the state at the start. -/
theorem Undisturbed.step_next_iff_runsAt {tr : Nat → State} (h : Undisturbed tr) (h0 : (tr 0).Inv) {n : Nat}
    (hn : Reached tr n) : (∃ t, step (tr n) = .next t) ↔ (tr 0).RunsAt n := by
  rw [step_next_iff, h.final_iff h0 hn, (h.sameRun hn).vmxEnabled_eq, State.RunsAt, exists_comm]
  simp only [State.At, h.fetch_ok_iff h0 hn]

theorem Undisturbed.reached_iff_runsAt {tr : Nat → State} (h : Undisturbed tr) (h0 : (tr 0).Inv) {n : Nat} :
    Reached tr n ↔ ∀ j, j < n → (tr 0).RunsAt j := by
  induction n with
  | zero => exact iff_of_true (reached_zero tr) nofun
  | succ n ih =>
    rw [reached_succ, Nat.forall_lt_succ_right, ← ih]
    exact and_congr_right (h.step_next_iff_runsAt h0)

/-- Settles O45: the machine runs as far as the words of the start let it, and each step is the addition of its word. -/
theorem undisturbedRunIsTheMachines : Obligations.UndisturbedRunIsTheMachines := by
  refine fun tr h h0 n => ⟨fun t => ?_, fun w i hn hw hi => ?_⟩
  · refine h.run_eq_next_iff.trans ?_
    rw [h.reached_iff_runsAt h0, and_comm]
    rfl
  · obtain ⟨hn, ht⟩ := reached_succ.mp hn
    exact addEffect_of_exec_next (step_at_next ⟨w, (h.fetch_ok_iff h0 hn).mpr hw, hi⟩ (h.step_eq ht))

/-- Settles O28: no word of the line stands at the end's address, so the run comes to every one of them. -/
theorem straightLineRunsToItsEnd : Obligations.StraightLineRunsToItsEnd := by
  intro tr k h h0 hen hspace hhalt hwords
  have hruns : ∀ j, j < k → (tr 0).RunsAt j := by
    refine fun j hj => ⟨hen, fun hj' => ?_, hwords j hj⟩
    rw [hhalt, Option.some.injEq, State.addrAdd_inj _ _ hspace (by omega)] at hj'
    omega
  have hk : Reached tr k := (h.reached_iff_runsAt h0).mpr hruns
  refine ⟨fun j hj => ?_, (h.final_iff h0 hk).mpr hhalt, h.run_eq_next_iff.mpr ⟨hk, rfl⟩⟩
  obtain ⟨t, ht⟩ := hk j hj
  exact not_final_of_step_next ht

/-! ### How a run stops (`70_reset_and_hazards.md` R71, `60_exceptions.md` R61) -/

/-- A run that does not come to its n-th instruction stops before it. -/
theorem exists_last_of_not_reached {tr : Nat → State} {n : Nat} (hn : ¬Reached tr n) :
    ∃ k, k < n ∧ Reached tr k ∧ ¬∃ t, step (tr k) = .next t := by
  induction n with
  | zero => exact absurd (reached_zero tr) hn
  | succ n ih =>
    by_cases hr : Reached tr n
    · exact ⟨n, n.lt_succ_self, hr, fun ht => hn (reached_succ.mpr ⟨hr, ht⟩)⟩
    · obtain ⟨k, hk, hstop⟩ := ih hr
      exact ⟨k, hk.trans n.lt_succ_self, hstop⟩

theorem final_or_refused {s : State} (h : ¬∃ t, step s = .next t) : s.Final ∨ ∃ r, step s = .refused r := by
  cases ho : step s with
  | next t => exact absurd ⟨t, ho⟩ h
  | fault f => exact .inl (step_fault ho).1
  | refused r => exact .inr ⟨r, rfl⟩

/-- Going up by 4 from an aligned address, every aligned address is met. -/
theorem State.Inv.exists_addrAdd_eq {s : State} (h : s.Inv) {a : Nat} (ha : InstrAddr s.pcBits a) :
    ∃ n, n < 2 ^ s.pcBits / 4 ∧ s.addrAdd s.pc (4 * n) = a := by
  obtain ⟨k, hk⟩ := Nat.exists_eq_add_of_le h.width
  have hspace : 2 ^ s.pcBits = 4 * 2 ^ k := by rw [hk, pow_add]; norm_num
  obtain ⟨hpc, hpc4⟩ := h.pc
  obtain ⟨ha, ha4⟩ := ha
  simp only [State.addrAdd, hspace] at *
  rcases Nat.lt_or_ge a s.pc with hlt | hge
  · have hsum : s.pc + 4 * ((a + 4 * 2 ^ k - s.pc) / 4) = a + 4 * 2 ^ k := by omega
    exact ⟨(a + 4 * 2 ^ k - s.pc) / 4, by omega, by rw [hsum, Nat.add_mod_right, Nat.mod_eq_of_lt ha]⟩
  · have hsum : s.pc + 4 * ((a - s.pc) / 4) = a := by omega
    exact ⟨(a - s.pc) / 4, by omega, by rw [hsum, Nat.mod_eq_of_lt ha]⟩

/-- Settles O27: the marked end is among the addresses that `pc` goes through, and the run meets it or stops before it. -/
theorem runEndsOrIsRefused : Obligations.RunEndsOrIsRefused := by
  intro tr h h0 hmarked
  obtain ⟨a, ha⟩ := Option.ne_none_iff_exists'.mp hmarked
  obtain ⟨n, hn, hna⟩ := h0.exists_addrAdd_eq (h0.halt a ha)
  have hend : ∃ k, k < 2 ^ (tr 0).pcBits / 4 ∧ Reached tr k ∧ ¬∃ t, step (tr k) = .next t := by
    by_cases hr : Reached tr n
    · have hf : (tr n).Final := (h.final_iff h0 hr).mpr (hna ▸ ha)
      exact ⟨n, hn, hr, fun ⟨t, ht⟩ => not_final_of_step_next ht hf⟩
    · obtain ⟨k, hk, hstop⟩ := exists_last_of_not_reached hr
      exact ⟨k, hk.trans hn, hstop⟩
  obtain ⟨k, hk, hr, hstop⟩ := hend
  refine ⟨⟨k, hk, hr, final_or_refused hstop⟩, fun t ht => hstop ?_⟩
  obtain ⟨hreached, -⟩ := h.run_eq_next_iff.mp ht
  exact hreached k (hk.trans_eq (Nat.pow_div h0.width (by decide)))

/-- A refusal is that of the fetch, of the decoder, or of an instruction with the vector unit disabled. -/
theorem step_refused {s : State} {r : Refusal} (h : step s = .refused r) :
    s.fetch = .error r ∨ r = .notSpecified ∨ s.vmxEnabled = false := by
  unfold step at h
  split at h
  · cases h
  split at h
  · cases h
    exact .inl ‹_›
  split at h
  · cases h
    exact .inr (.inl rfl)
  · cases hen : s.vmxEnabled with
    | false => exact .inr (.inr rfl)
    | true => rw [exec_of_enabled _ hen] at h; cases h

/-- Settles O46: the launch premises give a legal start, and an undisturbed run from there keeps them. -/
theorem runUnderLaunchPremises : Obligations.RunUnderLaunchPremises := by
  intro l tr hp n hn
  have h := hp.undisturbed
  have h0 : (tr 0).Inv := hp.start ▸ hp.legal.inv
  have hinv := h.inv h0 hn
  have hpc := h.pc_eq h0 hn
  have hsame := h.sameVscrAndRun hn
  rw [hp.start] at hpc hsame
  obtain ⟨hnj, hsat, hrun⟩ := hsame
  refine ⟨hinv, hpc, hnj, hsat, hrun, fun r hr => ?_⟩
  obtain hfetch | rfl | hdis := step_refused hr
  · obtain ⟨rfl, hmis⟩ | ⟨rfl, -⟩ := State.fetch_error hfetch
    · exact absurd hinv.pc.2 hmis
    · exact .inl rfl
  · exact .inr rfl
  · cases (hrun.vmxEnabled_eq.trans hp.legal.enabled).symm.trans hdis

end Sys2Proof.Machine


namespace Sys2Proof.Machine

/-! ### Sign and magnitude (`40_vector_float_add.md` R40) -/

/-- The integer of the given sign and magnitude. -/
def signed (sg : Bool) (m : Nat) : Int :=
  if sg then -(m : Int) else (m : Int)

@[simp] theorem natAbs_signed (sg : Bool) (m : Nat) : (signed sg m).natAbs = m := by
  cases sg <;> simp [signed]

theorem signed_decide_natAbs (t : Int) : signed (decide (t < 0)) t.natAbs = t := by
  by_cases h : t < 0
  · simp [signed, h, abs_of_neg]
  · simp [signed, h, abs_of_nonneg (not_lt.mp h)]

theorem signed_lt_zero {sg : Bool} {m : Nat} (h : m ≠ 0) : decide (signed sg m < 0) = sg := by
  cases sg <;> simp [signed]; omega

theorem signed_eq_zero {sg : Bool} {m : Nat} : signed sg m = 0 ↔ m = 0 := by
  rw [← Int.natAbs_eq_zero, natAbs_signed]

theorem signed_mul (sg : Bool) (m n : Nat) : signed sg (m * n) = signed sg m * n := by
  cases sg <;> simp [signed]

theorem signed_add_self (sg : Bool) (m : Nat) : signed sg m + signed sg m = signed sg (m * 2) := by
  rw [signed_mul]; push_cast; ring

theorem signed_not (sg : Bool) (m : Nat) : signed (!sg) m = -signed sg m := by
  cases sg <;> simp [signed]

/-- The multiple of `2 ^ -149` that a lane with these fields is, without its sign. -/
def fieldMag (e f : Nat) : Nat :=
  if e = 0 then f else (2 ^ 23 + f) * 2 ^ (e - 1)

theorem scaledVal_eq_signed (x : Lane) : scaledVal x = signed (signOf x) (fieldMag (expOf x) (fracOf x)) := rfl

theorem scaledVal_packLane (sg : Bool) {e f : Nat} (he : e < 256) (hf : f < 2 ^ 23) :
    scaledVal (packLane sg e f) = signed sg (fieldMag e f) := by
  rw [scaledVal_eq_signed, signOf_packLane sg he hf, expOf_packLane sg he hf, fracOf_packLane sg he hf]

theorem fieldMag_zero (f : Nat) : fieldMag 0 f = f := rfl

theorem fieldMag_succ (e f : Nat) : fieldMag (e + 1) f = (2 ^ 23 + f) * 2 ^ e := rfl

theorem fieldMag_eq_zero {e f : Nat} : fieldMag e f = 0 ↔ e = 0 ∧ f = 0 := by
  cases e with
  | zero => simp [fieldMag_zero]
  | succ e => simp [fieldMag_succ]

/-- The value is zero exactly at the two zeros. -/
theorem scaledVal_eq_zero {x : Lane} : scaledVal x = 0 ↔ classOf x = .zero := by
  rw [scaledVal_eq_signed, signed_eq_zero, fieldMag_eq_zero, classOf_eq_zero]

/-! ### Rounding to an integer (`40_vector_float_add.md` R42) -/

@[simp] theorem nearestEven_zero (m : Nat) : nearestEven m 0 = m := by simp [nearestEven, Nat.mod_one]

@[simp] theorem nearestEven_mul_two_pow (n k : Nat) : nearestEven (n * 2 ^ k) k = n := by
  simp [nearestEven]

/-- The chosen multiple of `2 ^ k` is at most half of `2 ^ k` away, and it is the even one where it is exactly half. -/
theorem nearestEven_spec (m k : Nat) :
    2 * (nearestEven m k * 2 ^ k) ≤ 2 * m + 2 ^ k ∧ 2 * m ≤ 2 * (nearestEven m k * 2 ^ k) + 2 ^ k ∧
      (2 * (nearestEven m k * 2 ^ k) = 2 * m + 2 ^ k ∨ 2 * m = 2 * (nearestEven m k * 2 ^ k) + 2 ^ k →
        nearestEven m k % 2 = 0) := by
  have hm := Nat.div_add_mod' m (2 ^ k)
  have hr := Nat.mod_lt m (show 0 < 2 ^ k by positivity)
  simp only [nearestEven]
  generalize m / 2 ^ k = q at *
  generalize m % 2 ^ k = r at *
  have hsucc : (q + 1) * 2 ^ k = q * 2 ^ k + 2 ^ k := Nat.succ_mul q _
  split_ifs with hlow hhigh
  · omega
  · rw [hsucc]; omega
  · rcases Nat.mod_two_eq_zero_or_one q with hq | hq
    · rw [hq, Nat.add_zero]; omega
    · rw [hq, hsucc]; omega

theorem nearestEven_le {m n k : Nat} (h : m < n * 2 ^ k) : nearestEven m k ≤ n := by
  obtain ⟨hle, -, -⟩ := nearestEven_spec m k
  have hpos : 0 < 2 ^ k := by positivity
  by_contra hn
  have hmul : (n + 1) * 2 ^ k ≤ nearestEven m k * 2 ^ k := Nat.mul_le_mul_right _ (by omega)
  rw [Nat.succ_mul] at hmul
  omega

theorem le_nearestEven {m n k : Nat} (h : n * 2 ^ k ≤ m) : n ≤ nearestEven m k := by
  obtain ⟨-, hge, -⟩ := nearestEven_spec m k
  have hpos : 0 < 2 ^ k := by positivity
  by_contra hn
  have hmul : (nearestEven m k + 1) * 2 ^ k ≤ n * 2 ^ k := Nat.mul_le_mul_right _ (by omega)
  rw [Nat.succ_mul] at hmul
  omega

/-- Where `n` is odd, everything from the middle between `n` and `n + 1` on goes to `n + 1` or above. -/
theorem succ_le_nearestEven_iff {m n k : Nat} (hn : n % 2 = 1) :
    n + 1 ≤ nearestEven m k ↔ 2 * (n * 2 ^ k) + 2 ^ k ≤ 2 * m := by
  obtain ⟨hle, hge, htie⟩ := nearestEven_spec m k
  constructor
  · intro h
    have hmul : (n + 1) * 2 ^ k ≤ nearestEven m k * 2 ^ k := Nat.mul_le_mul_right _ h
    rw [Nat.succ_mul] at hmul
    omega
  · intro h
    by_contra hlt
    have hmul : nearestEven m k * 2 ^ k ≤ n * 2 ^ k := Nat.mul_le_mul_right _ (by omega)
    have heq : nearestEven m k = n := Nat.eq_of_mul_eq_mul_right (show 0 < 2 ^ k by positivity) (by omega)
    have heven := htie (by omega)
    omega

/-- No multiple of `2 ^ k` is nearer, and where another is as near the chosen one is even. -/
theorem abs_nearestEven_sub_le (m k : Nat) (z : Int) :
    |((nearestEven m k * 2 ^ k : Nat) - m : Int)| ≤ |z * 2 ^ k - m| ∧
      (|((nearestEven m k * 2 ^ k : Nat) - m : Int)| = |z * 2 ^ k - m| →
        z * 2 ^ k = (nearestEven m k * 2 ^ k : Nat) ∨ nearestEven m k % 2 = 0) := by
  obtain ⟨hle, hge, htie⟩ := nearestEven_spec m k
  have hpos : 0 < 2 ^ k := by positivity
  have hz : z * 2 ^ k = (nearestEven m k * 2 ^ k : Nat) ∨ z * 2 ^ k + (2 ^ k : Nat) ≤ (nearestEven m k * 2 ^ k : Nat) ∨
      ((nearestEven m k * 2 ^ k : Nat) : Int) + (2 ^ k : Nat) ≤ z * 2 ^ k := by
    push_cast
    rcases lt_trichotomy z (nearestEven m k) with h | rfl | h
    · exact .inr (.inl (by nlinarith))
    · exact .inl rfl
    · exact .inr (.inr (by nlinarith))
  generalize z * 2 ^ k = v at *
  generalize nearestEven m k * 2 ^ k = c at *
  simp only [Int.abs_eq_natAbs]
  omega

/-! ### The rounded significand (`40_vector_float_add.md` R42) -/

/-- The exponent of the spacing of 24-bit significands at `m`, in the multiples of `2 ^ -149`. -/
def ulpExp (m : Nat) : Nat := max m.log2 23 - 23

/-- The significand `m` rounds to, before it is brought below `2 ^ 24`. -/
def significand (m : Nat) : Nat := nearestEven m (ulpExp m)

theorem lt_two_pow_ulpExp (m : Nat) : m < 2 ^ 24 * 2 ^ ulpExp m := by
  rw [← pow_add]
  exact Nat.lt_log2_self.trans_le (Nat.pow_le_pow_right (by decide) (by unfold ulpExp; omega))

theorem two_pow_ulpExp_le {m : Nat} (h : ulpExp m ≠ 0) : 2 ^ 23 * 2 ^ ulpExp m ≤ m := by
  have hm : m ≠ 0 := by rintro rfl; exact h (by decide)
  rw [← pow_add, ← Nat.le_log2 hm]
  unfold ulpExp at *
  omega

/-- The two bounds determine the exponent. -/
theorem ulpExp_eq {m k : Nat} (hlt : m < 2 ^ 24 * 2 ^ k) (hle : k = 0 ∨ 2 ^ 23 * 2 ^ k ≤ m) : ulpExp m = k := by
  rcases Nat.eq_zero_or_pos m with rfl | hm
  · rcases hle with rfl | hle
    · decide
    · exact absurd hle (Nat.not_le.mpr (by positivity))
  rw [← pow_add] at hlt hle
  rw [← Nat.log2_lt hm.ne'] at hlt
  rw [← Nat.le_log2 hm.ne'] at hle
  unfold ulpExp
  omega

theorem significand_le (m : Nat) : significand m ≤ 2 ^ 24 := nearestEven_le (lt_two_pow_ulpExp m)

theorem le_significand {m : Nat} (h : ulpExp m ≠ 0) : 2 ^ 23 ≤ significand m := le_nearestEven (two_pow_ulpExp_le h)

/-- Below `2 ^ 24` every multiple is a significand. -/
theorem significand_of_lt {m : Nat} (h : m < 2 ^ 24) : ulpExp m = 0 ∧ significand m = m := by
  have hk : ulpExp m = 0 := ulpExp_eq (by omega) (.inl rfl)
  exact ⟨hk, by rw [significand, hk, nearestEven_zero]⟩

theorem roundSignificand_eq (m : Nat) : roundSignificand m =
    if significand m = 2 ^ 24 then (ulpExp m + 24, 2 ^ 23) else (ulpExp m + 23, significand m) := by
  have he : max m.log2 23 = ulpExp m + 23 := by unfold ulpExp; omega
  simp only [roundSignificand, he, Nat.add_sub_cancel]
  rfl

/-- The rounded value is out of range exactly from the middle between the largest finite value and `2 ^ 277` on. -/
theorem overflow_iff (m : Nat) : 276 < (roundSignificand m).1 ↔ (2 ^ 25 - 1) * 2 ^ 252 ≤ m := by
  have hlt := lt_two_pow_ulpExp m
  have hfst : 276 < (roundSignificand m).1 ↔ 253 < ulpExp m ∨ (ulpExp m = 253 ∧ 2 ^ 24 ≤ significand m) := by
    have := significand_le m
    rw [roundSignificand_eq]
    split_ifs <;> simp only <;> omega
  rw [hfst]
  rcases Nat.lt_trichotomy (ulpExp m) 253 with h | h | h
  · have hle : 2 ^ 24 * 2 ^ ulpExp m ≤ 2 ^ 24 * 2 ^ 252 :=
      Nat.mul_le_mul_left _ (Nat.pow_le_pow_right (by decide) (by omega))
    omega
  · have hmid := succ_le_nearestEven_iff (m := m) (n := 2 ^ 24 - 1) (k := 253) (by decide)
    rw [significand, h]
    omega
  · have hle := two_pow_ulpExp_le (m := m) (by omega)
    have hpow : 2 ^ 23 * 2 ^ 254 ≤ 2 ^ 23 * 2 ^ ulpExp m :=
      Nat.mul_le_mul_left _ (Nat.pow_le_pow_right (by decide) (by omega))
    omega

/-- The fields of the rounded value, where it is in range. -/
def roundedFields (m : Nat) : Nat × Nat :=
  if significand m < 2 ^ 23 then (0, significand m)
  else if significand m = 2 ^ 24 then (ulpExp m + 2, 0)
  else (ulpExp m + 1, significand m - 2 ^ 23)

theorem roundedFields_of_lt {m : Nat} (h : significand m < 2 ^ 23) : roundedFields m = (0, significand m) := if_pos h

theorem roundedFields_of_eq {m : Nat} (h : significand m = 2 ^ 24) : roundedFields m = (ulpExp m + 2, 0) := by
  rw [roundedFields, if_neg (by omega), if_pos h]

theorem roundedFields_of_ge {m : Nat} (h : 2 ^ 23 ≤ significand m) (h' : significand m ≠ 2 ^ 24) :
    roundedFields m = (ulpExp m + 1, significand m - 2 ^ 23) := by
  rw [roundedFields, if_neg (Nat.not_lt.mpr h), if_neg h']

theorem round32_of_overflow {t : Int} (h : (2 ^ 25 - 1) * 2 ^ 252 ≤ t.natAbs) :
    round32 t = infinityLane (decide (t < 0)) := by
  rw [round32, if_pos ((overflow_iff _).mpr h)]

theorem round32_eq_packLane {t : Int} (h : t.natAbs < (2 ^ 25 - 1) * 2 ^ 252) :
    round32 t = packLane (decide (t < 0)) (roundedFields t.natAbs).1 (roundedFields t.natAbs).2 := by
  have hov := mt (overflow_iff t.natAbs).mp (Nat.not_le.mpr h)
  simp only [round32, hov, if_false]
  by_cases h24 : significand t.natAbs = 2 ^ 24
  · rw [roundedFields_of_eq h24, roundSignificand_eq, if_pos h24, if_neg (Nat.lt_irrefl _), Nat.sub_self]
    rfl
  rw [roundSignificand_eq, if_neg h24]
  rcases Nat.lt_or_ge (significand t.natAbs) (2 ^ 23) with h23 | h23
  · rw [roundedFields_of_lt h23, if_pos h23]
  · rw [roundedFields_of_ge h23 h24, if_neg (Nat.not_lt.mpr h23)]
    rfl

/-- In range the fields fit, and make the rounded multiple of `2 ^ ulpExp m` with the evenness of the significand. -/
theorem roundedFields_spec {m : Nat} (h : m < (2 ^ 25 - 1) * 2 ^ 252) :
    (roundedFields m).1 < 255 ∧ (roundedFields m).2 < 2 ^ 23 ∧
      fieldMag (roundedFields m).1 (roundedFields m).2 = significand m * 2 ^ ulpExp m ∧
      (roundedFields m).2 % 2 = significand m % 2 := by
  have hov := mt (overflow_iff m).mp (Nat.not_le.mpr h)
  rw [roundSignificand_eq] at hov
  have hle := significand_le m
  rcases Nat.lt_or_ge (significand m) (2 ^ 23) with h23 | h23
  · have hk : ulpExp m = 0 := by_contra fun hk => absurd (le_significand hk) (Nat.not_le.mpr h23)
    rw [roundedFields_of_lt h23, hk, fieldMag_zero]
    omega
  by_cases h24 : significand m = 2 ^ 24
  · rw [if_pos h24] at hov
    rw [roundedFields_of_eq h24, h24, fieldMag_succ]
    simp only
    exact ⟨by omega, by decide, by ring, by decide⟩
  · rw [if_neg h24] at hov
    rw [roundedFields_of_ge h23 h24, fieldMag_succ, Nat.add_sub_cancel' h23]
    omega

/-! ### What the rounded lane is -/

/-- In range: a finite lane of the sign, the nearest multiple, and even where the significand is. -/
theorem round32_of_lt {t : Int} (h : t.natAbs < (2 ^ 25 - 1) * 2 ^ 252) :
    isFinite (round32 t) = true ∧
      scaledVal (round32 t) = signed (decide (t < 0)) (significand t.natAbs * 2 ^ ulpExp t.natAbs) ∧
      fracOf (round32 t) % 2 = significand t.natAbs % 2 := by
  obtain ⟨he, hf, hmag, heven⟩ := roundedFields_spec h
  have he' : (roundedFields t.natAbs).1 < 256 := by omega
  rw [round32_eq_packLane h, scaledVal_packLane _ he' hf, fracOf_packLane _ he' hf, hmag, heven]
  refine ⟨?_, rfl, rfl⟩
  rw [isFinite, expOf_packLane _ he' hf, decide_eq_true_iff]
  omega

@[simp] theorem classOf_infinityLane (sg : Bool) : classOf (infinityLane sg) = .infinity := by cases sg <;> decide

theorem classOf_round32_ne_nan (t : Int) : classOf (round32 t) ≠ .nan := by
  rcases Nat.lt_or_ge t.natAbs ((2 ^ 25 - 1) * 2 ^ 252) with h | h
  · exact (isFinite_iff.mp (round32_of_lt h).1).1
  · rw [round32_of_overflow h, classOf_infinityLane]
    nofun

theorem isFinite_round32_iff (t : Int) : isFinite (round32 t) = true ↔ t.natAbs < (2 ^ 25 - 1) * 2 ^ 252 := by
  refine ⟨fun hfin => ?_, fun h => (round32_of_lt h).1⟩
  by_contra h
  rw [round32_of_overflow (Nat.not_lt.mp h), isFinite_iff, classOf_infinityLane] at hfin
  exact hfin.2 rfl

/-- A sum below `2 ^ 24` multiples is its own significand. -/
theorem scaledVal_round32_of_small {t : Int} (h : t.natAbs < 2 ^ 24) : scaledVal (round32 t) = t := by
  obtain ⟨hk, hn⟩ := significand_of_lt h
  obtain ⟨-, hval, -⟩ := round32_of_lt (h.trans (by decide))
  rw [hval, hk, hn, pow_zero, Nat.mul_one, signed_decide_natAbs]

/-- The exponent and the significand of a lane's own value. -/
theorem ulpExp_fieldMag (e : Nat) {f : Nat} (hf : f < 2 ^ 23) :
    ulpExp (fieldMag e f) = e - 1 ∧ significand (fieldMag e f) = if e = 0 then f else 2 ^ 23 + f := by
  cases e with
  | zero => exact significand_of_lt (by rw [fieldMag_zero]; omega)
  | succ e =>
    have hpos : 0 < 2 ^ e := by positivity
    have hk : ulpExp (fieldMag (e + 1) f) = e := by
      refine ulpExp_eq ?_ (.inr ?_)
      · exact Nat.mul_lt_mul_of_pos_right (by omega) hpos
      · exact Nat.mul_le_mul_right _ (by omega)
    exact ⟨hk, by rw [significand, hk, fieldMag_succ, nearestEven_mul_two_pow]; rfl⟩

theorem fieldMag_lt {e f : Nat} (he : e < 255) (hf : f < 2 ^ 23) : fieldMag e f < (2 ^ 25 - 1) * 2 ^ 252 := by
  have hpow : 2 ^ (e - 1) ≤ 2 ^ 253 := Nat.pow_le_pow_right (by decide) (by omega)
  calc fieldMag e f ≤ (2 ^ 24 - 1) * 2 ^ (e - 1) := by
        cases e with
        | zero => rw [fieldMag_zero]; omega
        | succ e => exact Nat.mul_le_mul_right _ (by omega)
    _ ≤ (2 ^ 24 - 1) * 2 ^ 253 := Nat.mul_le_mul_left _ hpow
    _ < (2 ^ 25 - 1) * 2 ^ 252 := by decide

/-- A value that a lane has is rounded to that lane. -/
theorem round32_signed_fieldMag (sg : Bool) {e f : Nat} (he : e < 255) (hf : f < 2 ^ 23) (hz : fieldMag e f ≠ 0) :
    round32 (signed sg (fieldMag e f)) = packLane sg e f := by
  obtain ⟨hk, hn⟩ := ulpExp_fieldMag e hf
  rw [round32_eq_packLane (by rw [natAbs_signed]; exact fieldMag_lt he hf), natAbs_signed, signed_lt_zero hz]
  cases e with
  | zero => rw [roundedFields_of_lt (hn ▸ hf), hn]; rfl
  | succ e =>
    rw [if_neg e.succ_ne_zero] at hn
    rw [roundedFields_of_ge (by omega) (by omega), hk, hn, Nat.add_sub_cancel_left]
    rfl

theorem round32_scaledVal {x : Lane} (hfin : isFinite x = true) (hz : classOf x ≠ .zero) : round32 (scaledVal x) = x := by
  have he : expOf x < 255 := by
    have := expOf_lt x
    rw [isFinite, decide_eq_true_iff] at hfin
    omega
  have hmag : fieldMag (expOf x) (fracOf x) ≠ 0 := by
    rwa [Ne, ← signed_eq_zero (sg := signOf x), ← scaledVal_eq_signed, scaledVal_eq_zero]
  rw [scaledVal_eq_signed, round32_signed_fieldMag _ he (fracOf_lt x) hmag, packLane_fields]

end Sys2Proof.Machine


namespace Sys2Proof.Machine

/-! ### The flush (`40_vector_float_add.md` R41) -/

@[simp] theorem signOf_flushDenorm (x : Lane) : signOf (flushDenorm x) = signOf x := by
  by_cases h : classOf x = .denormal
  · rw [flushDenorm_of_denormal h, signOf_packLane _ (by decide) (by decide)]
  · rw [flushDenorm_of_ne h]

theorem classOf_flushDenorm (x : Lane) :
    classOf (flushDenorm x) = if classOf x = .denormal then .zero else classOf x := by
  by_cases h : classOf x = .denormal
  · rw [flushDenorm_of_denormal h, if_pos h, classOf_eq_zero, expOf_packLane _ (by decide) (by decide),
      fracOf_packLane _ (by decide) (by decide)]
    exact ⟨rfl, rfl⟩
  · rw [flushDenorm_of_ne h, if_neg h]

theorem classOf_flushDenorm_ne_denormal (x : Lane) : classOf (flushDenorm x) ≠ .denormal := by
  rw [classOf_flushDenorm]
  split_ifs with h
  · nofun
  · exact h

@[simp] theorem flushDenorm_flushDenorm (x : Lane) : flushDenorm (flushDenorm x) = flushDenorm x :=
  flushDenorm_of_ne (classOf_flushDenorm_ne_denormal x)

theorem classOf_flushDenorm_eq_iff {x : Lane} {c : LaneClass} (hd : c ≠ .denormal) (hz : c ≠ .zero) :
    classOf (flushDenorm x) = c ↔ classOf x = c := by
  rw [classOf_flushDenorm]
  split_ifs with h
  · rw [h]
    exact iff_of_false hz.symm hd.symm
  · rfl

theorem classOf_flushDenorm_eq_nan {x : Lane} : classOf (flushDenorm x) = .nan ↔ classOf x = .nan :=
  classOf_flushDenorm_eq_iff (by decide) (by decide)

theorem classOf_flushDenorm_eq_infinity {x : Lane} : classOf (flushDenorm x) = .infinity ↔ classOf x = .infinity :=
  classOf_flushDenorm_eq_iff (by decide) (by decide)

theorem isFinite_flushDenorm (x : Lane) : isFinite (flushDenorm x) = isFinite x := by
  rw [Bool.eq_iff_iff, isFinite_iff, isFinite_iff, Ne, Ne, classOf_flushDenorm_eq_nan,
    classOf_flushDenorm_eq_infinity]

theorem scaledVal_flushDenorm (x : Lane) :
    scaledVal (flushDenorm x) = if classOf x = .denormal then 0 else scaledVal x := by
  by_cases h : classOf x = .denormal
  · rw [if_pos h, scaledVal_eq_zero, classOf_flushDenorm, if_pos h]
  · rw [if_neg h, flushDenorm_of_ne h]

/-- Settles O36: the four facts about the flush. -/
theorem flushReplacesDenormals : Obligations.FlushReplacesDenormals := fun x =>
  ⟨signOf_flushDenorm x, flushDenorm_flushDenorm x, fun h => by rw [classOf_flushDenorm, if_pos h], flushDenorm_of_ne⟩

/-- Settles O39: the last thing done to the sum is the flush. -/
theorem resultNeverDenormal : Obligations.ResultNeverDenormal := fun a b => by
  rw [laneAdd_true]
  exact classOf_flushDenorm_ne_denormal _

/-! ### The sum of finite lanes (`40_vector_float_add.md` R42) -/

theorem isFinite_of_classOf_zero {x : Lane} (h : classOf x = .zero) : isFinite x = true := by
  rw [isFinite_iff, h]
  exact ⟨nofun, nofun⟩

theorem class_cases (x : Lane) : classOf x = .nan ∨ classOf x = .infinity ∨ isFinite x = true := by
  rw [isFinite_iff]
  tauto

theorem fadd32_of_sum_ne_zero {a b : Lane} (ha : isFinite a = true) (hb : isFinite b = true)
    (h : scaledVal a + scaledVal b ≠ 0) : fadd32 a b = round32 (scaledVal a + scaledVal b) := by
  have hz : ¬(classOf a = .zero ∧ classOf b = .zero) := fun ⟨hza, hzb⟩ =>
    h (by rw [scaledVal_eq_zero.mpr hza, scaledVal_eq_zero.mpr hzb, add_zero])
  rw [fadd32_of_finite ha hb hz, if_neg h]

/-- An exact sum of zero is +0, unless both lanes are the same zero, which is then the sum. -/
theorem fadd32_of_sum_eq_zero {a b : Lane} (ha : isFinite a = true) (hb : isFinite b = true)
    (h : scaledVal a + scaledVal b = 0) : fadd32 a b = if a = b then a else 0 := by
  by_cases hz : classOf a = .zero ∧ classOf b = .zero
  · exact fadd32_of_zeros hz.1 hz.2
  · have hne : a ≠ b := by
      rintro rfl
      exact hz (and_self_iff.mpr (scaledVal_eq_zero.mp (by omega)))
    rw [fadd32_of_finite ha hb hz, if_pos h, if_neg hne]

theorem classOf_fadd32_of_sum_eq_zero {a b : Lane} (ha : isFinite a = true) (hb : isFinite b = true)
    (h : scaledVal a + scaledVal b = 0) : classOf (fadd32 a b) = .zero := by
  rw [fadd32_of_sum_eq_zero ha hb h]
  split_ifs with hab
  · subst hab
    exact scaledVal_eq_zero.mp (by omega)
  · decide

/-- A small sum needs no rounding. -/
theorem fadd32_of_small {a b : Lane} (ha : isFinite a = true) (hb : isFinite b = true)
    (h : (scaledVal a + scaledVal b).natAbs < 2 ^ 24) :
    isFinite (fadd32 a b) = true ∧ scaledVal (fadd32 a b) = scaledVal a + scaledVal b := by
  by_cases h0 : scaledVal a + scaledVal b = 0
  · have hz := classOf_fadd32_of_sum_eq_zero ha hb h0
    exact ⟨isFinite_of_classOf_zero hz, by rw [h0, scaledVal_eq_zero, hz]⟩
  · rw [fadd32_of_sum_ne_zero ha hb h0]
    exact ⟨(isFinite_round32_iff _).mpr (h.trans (by decide)), scaledVal_round32_of_small h⟩

theorem classOf_fadd32_ne_nan_of_finite {a b : Lane} (ha : isFinite a = true) (hb : isFinite b = true) :
    classOf (fadd32 a b) ≠ .nan := by
  by_cases h : scaledVal a + scaledVal b = 0
  · rw [classOf_fadd32_of_sum_eq_zero ha hb h]
    nofun
  · rw [fadd32_of_sum_ne_zero ha hb h]
    exact classOf_round32_ne_nan _

theorem fadd32_comm_of_finite {a b : Lane} (ha : isFinite a = true) (hb : isFinite b = true) :
    fadd32 a b = fadd32 b a := by
  by_cases h : scaledVal a + scaledVal b = 0
  · rw [fadd32_of_sum_eq_zero ha hb h, fadd32_of_sum_eq_zero hb ha (by omega)]
    split_ifs with hab hba hba
    · exact hab
    · exact absurd hab.symm hba
    · exact absurd hba.symm hab
    · rfl
  · rw [fadd32_of_sum_ne_zero ha hb h, fadd32_of_sum_ne_zero hb ha (by omega), add_comm]

/-! ### Infinities and NaNs (`40_vector_float_add.md` R42, R43) -/

theorem infinity_eq_iff {a b : Lane} (ha : classOf a = .infinity) (hb : classOf b = .infinity) :
    a = b ↔ signOf a = signOf b := by
  rw [classOf_eq_infinity] at ha hb
  exact ⟨fun h => h ▸ rfl, fun h => lane_ext h (ha.1.trans hb.1.symm) (ha.2.trans hb.2.symm)⟩

theorem fadd32_infinity_finite {a b : Lane} (ha : classOf a = .infinity) (hb : isFinite b = true) : fadd32 a b = a :=
  fadd32_of_infinity_left ha (isFinite_iff.mp hb).1 (isFinite_iff.mp hb).2

theorem fadd32_finite_infinity {a b : Lane} (ha : isFinite a = true) (hb : classOf b = .infinity) : fadd32 a b = b :=
  fadd32_of_infinity_right hb (isFinite_iff.mp ha).1 (isFinite_iff.mp ha).2

/-- When a sum is a NaN. -/
def NanSum (a b : Lane) : Prop :=
  classOf a = .nan ∨ classOf b = .nan ∨ (classOf a = .infinity ∧ classOf b = .infinity ∧ signOf a ≠ signOf b)

theorem nanSum_flushDenorm (a b : Lane) : NanSum (flushDenorm a) (flushDenorm b) ↔ NanSum a b := by
  simp only [NanSum, signOf_flushDenorm, classOf_flushDenorm_eq_nan, classOf_flushDenorm_eq_infinity]

theorem fadd32_of_nanSum {a b : Lane} (h : NanSum a b) : fadd32 a b = nanResult a b := by
  obtain ha | hb | ⟨ha, hb, hs⟩ := h
  · exact fadd32_of_nan (.inl ha)
  · exact fadd32_of_nan (.inr hb)
  · rw [fadd32_of_infinities ha hb, if_neg (mt (infinity_eq_iff ha hb).mp hs)]

theorem classOf_fadd32_eq_nan_iff (a b : Lane) : classOf (fadd32 a b) = .nan ↔ NanSum a b := by
  refine ⟨fun h => ?_, fun h => by rw [fadd32_of_nanSum h, classOf_nanResult]⟩
  obtain ha | ha | ha := class_cases a
  · exact .inl ha
  all_goals obtain hb | hb | hb := class_cases b
  · exact .inr (.inl hb)
  · refine .inr (.inr ⟨ha, hb, fun hs => ?_⟩)
    rw [fadd32_of_infinities ha hb, if_pos ((infinity_eq_iff ha hb).mpr hs), ha] at h
    cases h
  · rw [fadd32_infinity_finite ha hb, ha] at h
    cases h
  · exact .inr (.inl hb)
  · rw [fadd32_finite_infinity ha hb, hb] at h
    cases h
  · exact absurd h (classOf_fadd32_ne_nan_of_finite ha hb)

/-- Settles O38: the flush, of operands and of result, changes neither NaNs nor infinities nor signs. -/
theorem nanExactlyWhen : Obligations.NanExactlyWhen := by
  intro a b nj
  cases nj with
  | false =>
    rw [laneAdd_false]
    exact ⟨classOf_fadd32_eq_nan_iff a b, fun h => fadd32_of_nanSum ((classOf_fadd32_eq_nan_iff a b).mp h)⟩
  | true =>
    rw [laneAdd_true, classOf_flushDenorm_eq_nan, classOf_fadd32_eq_nan_iff]
    refine ⟨nanSum_flushDenorm a b, fun h => ?_⟩
    rw [fadd32_of_nanSum h, flushDenorm_of_ne (by rw [classOf_nanResult]; nofun), if_pos rfl]

/-! ### Commutation (`40_vector_float_add.md` section 5, law a) -/

theorem fadd32_comm_of_ne_nan {a b : Lane} (h : classOf (fadd32 a b) ≠ .nan) : fadd32 a b = fadd32 b a := by
  rw [Ne, classOf_fadd32_eq_nan_iff, NanSum, not_or, not_or] at h
  obtain ⟨hna, hnb, hs⟩ := h
  obtain ha | ha | ha := class_cases a
  · exact absurd ha hna
  all_goals obtain hb | hb | hb := class_cases b
  · exact absurd hb hnb
  · have hab : a = b := (infinity_eq_iff ha hb).mpr (by_contra fun hne => hs ⟨ha, hb, hne⟩)
    rw [hab]
  · rw [fadd32_infinity_finite ha hb, fadd32_finite_infinity hb ha]
  · exact absurd hb hnb
  · rw [fadd32_finite_infinity ha hb, fadd32_infinity_finite hb ha]
  · exact fadd32_comm_of_finite ha hb

/-- Settles O40: the sum commutes, and the flush treats both operands alike. -/
theorem laneAddCommutes : Obligations.LaneAddCommutes := by
  intro a b nj h
  cases nj with
  | false =>
    rw [laneAdd_false] at h
    rw [laneAdd_false, laneAdd_false, fadd32_comm_of_ne_nan h]
  | true =>
    rw [laneAdd_true, Ne, classOf_flushDenorm_eq_nan] at h
    rw [laneAdd_true, laneAdd_true, fadd32_comm_of_ne_nan h]

/-! ### Adding a zero (`40_vector_float_add.md` section 5, laws b and c) -/

theorem zero_lanes {x : Lane} (h : classOf x = .zero) : x = 0x00000000 ∨ x = 0x80000000 := by
  obtain ⟨he, hf⟩ := classOf_eq_zero.mp h
  rw [← packLane_fields x, he, hf]
  cases signOf x <;> decide

theorem fadd32_zero {x z : Lane} (hz : classOf z = .zero) (hn : classOf x ≠ .nan) (hx : classOf x ≠ .zero) :
    fadd32 x z = x := by
  have hfin := isFinite_of_classOf_zero hz
  obtain h | h | h := class_cases x
  · exact absurd h hn
  · exact fadd32_infinity_finite h hfin
  · have hsum : scaledVal x + scaledVal z = scaledVal x := by rw [scaledVal_eq_zero.mpr hz, add_zero]
    have hne : scaledVal x ≠ 0 := mt scaledVal_eq_zero.mp hx
    rw [fadd32_of_sum_ne_zero h hfin (by rwa [hsum]), hsum, round32_scaledVal h hx]

theorem flushDenorm_zero {z : Lane} (h : classOf z = .zero) : flushDenorm z = z :=
  flushDenorm_of_ne (by rw [h]; nofun)

theorem laneAdd_zero {x z : Lane} (hz : classOf z = .zero) (hn : classOf x ≠ .nan) (hx : classOf (flushDenorm x) ≠ .zero) :
    laneAdd x z true = flushDenorm x := by
  have hn' : classOf (flushDenorm x) ≠ .nan := mt classOf_flushDenorm_eq_nan.mp hn
  rw [laneAdd_true, flushDenorm_zero hz, fadd32_zero hz hn' hx, flushDenorm_flushDenorm]

/-- Settles O41: a flushed lane that is no zero is the sum, and the sums of two zeros are computed. -/
theorem addingZeroOnlyFlushes : Obligations.AddingZeroOnlyFlushes := by
  intro x hn
  by_cases hx : classOf (flushDenorm x) = .zero
  · rw [laneAdd_true, laneAdd_true]
    obtain h | h := zero_lanes hx <;> rw [h] <;> decide
  · have hne : flushDenorm x ≠ 0x80000000 := fun h => hx (by rw [h]; decide)
    rw [if_neg hne]
    exact ⟨laneAdd_zero (by decide) hn hx, laneAdd_zero (by decide) hn hx⟩

/-! ### Adding the negation (`40_vector_float_add.md` section 5, law d) -/

theorem signOf_xor_signBit (x : Lane) : signOf (x ^^^ 0x80000000) = !signOf x := by
  rw [signOf, BitVec.msb_xor, show (0x80000000 : Lane).msb = true by decide, Bool.xor_true, signOf]

theorem slice_xor_signBit (x : Lane) {lo len : Nat} (h : slice (0x80000000 : Lane) lo len = 0#len) :
    slice (x ^^^ 0x80000000) lo len = slice x lo len := by
  rw [slice] at h
  rw [slice, BitVec.extractLsb'_xor, h, BitVec.xor_zero, slice]

theorem expOf_xor_signBit (x : Lane) : expOf (x ^^^ 0x80000000) = expOf x := by
  rw [expOf, slice_xor_signBit x (by decide), expOf]

theorem fracOf_xor_signBit (x : Lane) : fracOf (x ^^^ 0x80000000) = fracOf x := by
  rw [fracOf, slice_xor_signBit x (by decide), fracOf]

theorem classOf_xor_signBit (x : Lane) : classOf (x ^^^ 0x80000000) = classOf x := by
  rw [classOf, expOf_xor_signBit, fracOf_xor_signBit, classOf]

theorem scaledVal_xor_signBit (x : Lane) : scaledVal (x ^^^ 0x80000000) = -scaledVal x := by
  rw [scaledVal_eq_signed, signOf_xor_signBit, expOf_xor_signBit, fracOf_xor_signBit, signed_not, scaledVal_eq_signed]

/-- Settles O42: the flushed operands are exact negatives with different signs. -/
theorem negationCancels : Obligations.NegationCancels := by
  intro x hx
  have hneg : isFinite (x ^^^ 0x80000000) = true := by rwa [isFinite, expOf_xor_signBit]
  have hsum : scaledVal (flushDenorm x) + scaledVal (flushDenorm (x ^^^ 0x80000000)) = 0 := by
    rw [scaledVal_flushDenorm, scaledVal_flushDenorm, classOf_xor_signBit, scaledVal_xor_signBit]
    split_ifs <;> omega
  have hne : flushDenorm x ≠ flushDenorm (x ^^^ 0x80000000) := by
    intro h
    have hsign := congrArg signOf h
    rw [signOf_flushDenorm, signOf_flushDenorm, signOf_xor_signBit] at hsign
    exact (Bool.eq_not_self _).mp hsign
  rw [laneAdd_true, fadd32_of_sum_eq_zero (by rwa [isFinite_flushDenorm]) (by rwa [isFinite_flushDenorm]) hsum, if_neg hne]
  decide

/-! ### Doubling (`40_vector_float_add.md` section 5, law e) -/

theorem fieldMag_mul_two {e f : Nat} (he : e ≠ 0) : fieldMag e f * 2 = fieldMag (e + 1) f := by
  obtain ⟨e, rfl⟩ := Nat.exists_eq_succ_of_ne_zero he
  rw [fieldMag_succ, fieldMag_succ]
  ring

theorem add_one_exp {x : Lane} (h : expOf x ≤ 253) : x + 0x00800000 = packLane (signOf x) (expOf x + 1) (fracOf x) := by
  have hx := packLane_toNat (signOf x) (expOf_lt x) (fracOf_lt x)
  have hf := fracOf_lt x
  rw [packLane_fields] at hx
  have hs := Bool.toNat_le (signOf x)
  apply BitVec.eq_of_toNat_eq
  rw [packLane_toNat _ (by omega) hf, BitVec.toNat_add, hx,
    show (0x00800000 : Lane).toNat = 2 ^ 23 by decide]
  omega

theorem fadd32_self_of_normal {x : Lane} (h : classOf x = .normal) :
    fadd32 x x = round32 (signed (signOf x) (fieldMag (expOf x + 1) (fracOf x))) := by
  have hfin : isFinite x = true := isFinite_iff.mpr (by rw [h]; exact ⟨nofun, nofun⟩)
  have hne : scaledVal x ≠ 0 := mt scaledVal_eq_zero.mp (by rw [h]; nofun)
  rw [fadd32_of_sum_ne_zero hfin hfin (by omega), scaledVal_eq_signed, signed_add_self,
    fieldMag_mul_two (classOf_eq_normal.mp h).1]

theorem fadd32_self_of_zero {x : Lane} (h : classOf x = .zero) : fadd32 x x = x := by
  rw [fadd32_of_zeros h h, if_pos rfl]

theorem laneAdd_self_of_normal {x : Lane} (h : classOf x = .normal) :
    laneAdd x x true = flushDenorm (round32 (signed (signOf x) (fieldMag (expOf x + 1) (fracOf x)))) := by
  rw [laneAdd_true, flushDenorm_of_ne (x := x) (by rw [h]; nofun), fadd32_self_of_normal h]

/-- Settles O43: the doubled normal has the next exponent, which is in range up to 254 and overflows at 255. -/
theorem doublingIsExact : Obligations.DoublingIsExact := by
  refine fun x => ⟨fun h he => ?_, fun h he => ?_, fun h => ?_, fun h => ?_⟩
  · have hf := fracOf_lt x
    have hne : fieldMag (expOf x + 1) (fracOf x) ≠ 0 := by rw [Ne, fieldMag_eq_zero]; omega
    rw [laneAdd_self_of_normal h, round32_signed_fieldMag _ (by omega) hf hne, add_one_exp he, flushDenorm_of_ne]
    rw [Ne, classOf_eq_denormal, expOf_packLane _ (by omega) hf]
    omega
  · have hbig : (2 ^ 25 - 1) * 2 ^ 252 ≤ fieldMag (254 + 1) (fracOf x) := by rw [fieldMag_succ]; omega
    have hne : fieldMag (254 + 1) (fracOf x) ≠ 0 := by omega
    rw [laneAdd_self_of_normal h, he, round32_of_overflow (by rwa [natAbs_signed]), signed_lt_zero hne,
      flushDenorm_of_ne (by rw [classOf_infinityLane]; nofun)]
  · have hz : classOf (flushDenorm x) = .zero := by
      rw [classOf_flushDenorm]
      split_ifs with hd
      · rfl
      · exact h.resolve_right hd
    rw [laneAdd_true, fadd32_self_of_zero hz, flushDenorm_flushDenorm]
  · have hflush : flushDenorm x = x := flushDenorm_of_ne (by rw [h]; nofun)
    rw [laneAdd_true, hflush, fadd32_of_infinities h h, if_pos rfl, hflush]

/-- Settles O44: law g's example, computed. -/
theorem laneAddNotAssociative : Obligations.LaneAddNotAssociative := by
  unfold Obligations.LaneAddNotAssociative
  decide

end Sys2Proof.Machine


namespace Sys2Proof.Machine

/-! ### The value of a lane on rationals (`40_vector_float_add.md` R40) -/

theorem signed_cast (sg : Bool) (m : Nat) : ((signed sg m : Int) : ℚ) = (if sg then -1 else 1) * m := by
  cases sg <;> simp [signed]

theorem laneVal_of_zero {x : Lane} (h : classOf x = .zero) : laneVal x = 0 := by
  rw [laneVal, h]

theorem laneVal_of_denormal {x : Lane} (h : classOf x = .denormal) :
    laneVal x = (if signOf x then -1 else 1) * fracOf x * 2 ^ (-149 : ℤ) := by
  rw [laneVal, h]

theorem laneVal_of_normal {x : Lane} (h : classOf x = .normal) :
    laneVal x = (if signOf x then -1 else 1) * (2 ^ 23 + fracOf x) * 2 ^ ((expOf x : ℤ) - 150) := by
  rw [laneVal, h]

/-- Settles O30: class by class, the power of two of the lane's value times `2 ^ 149` is that of the integer. -/
theorem scaledValueExact : Obligations.ScaledValueExact := by
  intro x hfin
  cases h : classOf x with
  | zero => rw [laneVal_of_zero h, scaledVal_eq_zero.mpr h, Int.cast_zero, zero_mul]
  | denormal =>
    have hpow : (2 : ℚ) ^ (-149 : ℤ) * 2 ^ 149 = 1 := by norm_num
    rw [laneVal_of_denormal h, mul_assoc, hpow, mul_one, scaledVal_eq_signed, (classOf_eq_denormal.mp h).1, fieldMag_zero,
      signed_cast]
  | normal =>
    obtain ⟨e, he⟩ := Nat.exists_eq_succ_of_ne_zero (classOf_eq_normal.mp h).1
    have hpow : (2 : ℚ) ^ (((e + 1 : ℕ) : ℤ) - 150) * 2 ^ 149 = 2 ^ e := by
      rw [← zpow_natCast, ← zpow_natCast, ← zpow_add₀ two_ne_zero]
      congr 1
      push_cast
      ring
    rw [laneVal_of_normal h, scaledVal_eq_signed, he, fieldMag_succ, mul_assoc, hpow, signed_cast]
    push_cast
    ring
  | infinity => exact absurd h (isFinite_iff.mp hfin).2
  | nan => exact absurd h (isFinite_iff.mp hfin).1

theorem laneVal_eq {x : Lane} (h : isFinite x = true) : laneVal x = scaledVal x / 2 ^ 149 := by
  rw [scaledValueExact x h, mul_div_cancel_right₀ _ (by positivity)]

theorem laneVal_add {a b : Lane} (ha : isFinite a = true) (hb : isFinite b = true) :
    laneVal a + laneVal b = ((scaledVal a + scaledVal b : Int) : ℚ) / 2 ^ 149 := by
  rw [laneVal_eq ha, laneVal_eq hb, Int.cast_add, add_div]

theorem laneVal_add_eq_zero_iff {a b : Lane} (ha : isFinite a = true) (hb : isFinite b = true) :
    laneVal a + laneVal b = 0 ↔ scaledVal a + scaledVal b = 0 := by
  rw [laneVal_add ha hb, div_eq_zero_iff, Int.cast_eq_zero]
  exact or_iff_left (by positivity)

/-! ### `Round32` on rationals (`40_vector_float_add.md` R42) -/

theorem nearestEvenQ_div_two_pow (m k : Nat) : nearestEvenQ ((m : ℚ) / 2 ^ k) = nearestEven m k := by
  have hfloor : ⌊(m : ℚ) / 2 ^ k⌋ = ((m / 2 ^ k : Nat) : ℤ) := by
    have := Rat.floor_natCast_div_natCast m (2 ^ k)
    push_cast at this ⊢
    exact this
  have hfract : (m : ℚ) / 2 ^ k - ⌊(m : ℚ) / 2 ^ k⌋ = ((m % 2 ^ k : Nat) : ℚ) / 2 ^ k := by
    have := Int.fract_div_natCast_eq_div_natCast_mod (k := ℚ) (m := m) (n := 2 ^ k)
    push_cast at this ⊢
    exact this
  have hpos : (0 : ℚ) < 2 ^ k := by positivity
  have hlow : ((m % 2 ^ k : Nat) : ℚ) / 2 ^ k < 1 / 2 ↔ 2 * (m % 2 ^ k) < 2 ^ k := by
    rw [div_lt_div_iff₀ hpos two_pos]
    norm_cast
    omega
  have hhigh : 1 / 2 < ((m % 2 ^ k : Nat) : ℚ) / 2 ^ k ↔ 2 ^ k < 2 * (m % 2 ^ k) := by
    rw [div_lt_div_iff₀ two_pos hpos]
    norm_cast
    omega
  rw [nearestEvenQ, nearestEven, hfract, hfloor]
  simp only [hlow, hhigh]
  generalize m / 2 ^ k = q
  generalize m % 2 ^ k = r
  split_ifs <;> omega

theorem log_div_two_pow {m : Nat} (hm : m ≠ 0) : Int.log 2 ((m : ℚ) / 2 ^ 149) = (m.log2 : ℤ) - 149 := by
  have hpos : (0 : ℚ) < (m : ℚ) / 2 ^ 149 := by positivity
  have hscale (z : ℕ) : ((2 : ℕ) : ℚ) ^ ((z : ℤ) - 149) = ((2 ^ z : ℕ) : ℚ) / 2 ^ 149 := by
    rw [zpow_sub₀ (by norm_num)]
    norm_cast
  have hle : ((2 : ℕ) : ℚ) ^ ((m.log2 : ℤ) - 149) ≤ (m : ℚ) / 2 ^ 149 := by
    rw [hscale]
    gcongr
    exact Nat.log2_self_le hm
  have hlt : (m : ℚ) / 2 ^ 149 < ((2 : ℕ) : ℚ) ^ (((m.log2 + 1 : ℕ) : ℤ) - 149) := by
    rw [hscale]
    gcongr
    exact Nat.lt_log2_self
  rw [Int.zpow_le_iff_le_log (by decide) hpos] at hle
  rw [Int.lt_zpow_iff_log_lt (by decide) hpos] at hlt
  omega

/-- The exponent `e₀` of R42 is the model's, 126 higher. -/
theorem max_log_eq {m : Nat} (hm : m ≠ 0) : max (Int.log 2 ((m : ℚ) / 2 ^ 149)) (-126) = (ulpExp m : ℤ) - 126 := by
  rw [log_div_two_pow hm, ulpExp]
  omega

theorem scaled_div_ulp (m : Nat) : (m : ℚ) / 2 ^ 149 / 2 ^ ((ulpExp m : ℤ) - 126 - 23) = (m : ℚ) / 2 ^ ulpExp m := by
  rw [div_div, ← zpow_natCast, ← zpow_natCast, ← zpow_add₀ two_ne_zero]
  congr 2
  push_cast
  ring

/-- Settles O31: sign, exponent and significand of R42 are the model's, and so are the tests on them. -/
theorem roundingMatchesRationals : Obligations.RoundingMatchesRationals := by
  intro n hn
  have hm : n.natAbs ≠ 0 := Int.natAbs_ne_zero.mpr hn
  have hsign : decide ((n : ℚ) / 2 ^ 149 < 0) = decide (n < 0) := by
    rw [decide_eq_decide, div_lt_iff₀ (by positivity), zero_mul, Int.cast_lt_zero]
  have habs : |(n : ℚ) / 2 ^ 149| = (n.natAbs : ℚ) / 2 ^ 149 := by
    rw [abs_div, abs_of_pos (show (0 : ℚ) < 2 ^ 149 by positivity), Nat.cast_natAbs, Int.cast_abs]
  have hsig : nearestEvenQ ((n.natAbs : ℚ) / 2 ^ 149 / 2 ^ ((ulpExp n.natAbs : ℤ) - 126 - 23)) = significand n.natAbs := by
    rw [scaled_div_ulp, nearestEvenQ_div_two_pow, significand]
  obtain ⟨e, m, hp⟩ : ∃ e m, roundSignificand n.natAbs = (e, m) := ⟨_, _, rfl⟩
  have hexp : (if (significand n.natAbs : ℤ) = 2 ^ 24 then (ulpExp n.natAbs : ℤ) - 126 + 1 else ulpExp n.natAbs - 126) =
      (e : ℤ) - 149 := by
    rw [roundSignificand_eq] at hp
    split_ifs at hp ⊢ <;> cases hp <;> omega
  have hfrac : (if (significand n.natAbs : ℤ) = 2 ^ 24 then 2 ^ 23 else (significand n.natAbs : ℤ)) = m := by
    rw [roundSignificand_eq] at hp
    split_ifs at hp ⊢ <;> cases hp <;> omega
  have hover : (e : ℤ) - 149 > 127 ↔ 276 < e := by omega
  have hlow : (m : ℤ) < 2 ^ 23 ↔ m < 2 ^ 23 := by omega
  have hexpField : ((e : ℤ) - 149 + 127).toNat = e - 22 := by omega
  have hfracField : ((m : ℤ) - 2 ^ 23).toNat = m - 2 ^ 23 := by omega
  simp only [round32Q, hsign, habs, max_log_eq hm, hsig, hexp, hfrac, hover, hlow, hexpField, hfracField, Int.toNat_natCast,
    round32, hp]

/-! ### The sum on rationals -/

/-- Settles O32: the cases of the sum in R42's order, the last two by the value of the exact sum. -/
theorem sumMatchesRationals : Obligations.SumMatchesRationals := by
  intro a b
  refine ⟨fun h => ?_, fun ha hb => ⟨fun h => ?_, fun h => ?_⟩, fun ha hb => fadd32_infinity_finite ha hb,
    fun ha hb => fadd32_finite_infinity ha hb, fun ha hb => ⟨fun h => ?_, fun h => ?_⟩,
    fun ha hb hz => ⟨fun h => ?_, fun h => ?_⟩⟩
  · rw [fadd32_of_nan h]
    exact ⟨rfl, classOf_nanResult a b⟩
  · rw [fadd32_of_infinities ha hb, if_pos h]
  · rw [fadd32_of_infinities ha hb, if_neg h]
    exact ⟨rfl, classOf_nanResult a b⟩
  · rw [fadd32_of_zeros ha hb, if_pos h]
  · rw [fadd32_of_zeros ha hb, if_neg h]
  · rw [fadd32_of_finite ha hb hz, if_pos ((laneVal_add_eq_zero_iff ha hb).mp h)]
  · rw [Ne, laneVal_add_eq_zero_iff ha hb] at h
    rw [fadd32_of_sum_ne_zero ha hb h, roundingMatchesRationals _ h, laneVal_add ha hb]

/-! ### Nearness (`40_vector_float_add.md` R42) -/

/-- A finite value is a multiple of the spacing, or below the smallest 24-bit significand of that spacing. -/
theorem scaledVal_grid (y : Lane) (k : Nat) :
    (∃ z : Int, scaledVal y = z * 2 ^ k) ∨ (k ≠ 0 ∧ (scaledVal y).natAbs < 2 ^ 23 * 2 ^ k) := by
  have hf := fracOf_lt y
  have hpos : 0 < 2 ^ k := by positivity
  rw [scaledVal_eq_signed, natAbs_signed]
  cases he : expOf y with
  | zero =>
    rw [fieldMag_zero]
    rcases Nat.eq_zero_or_pos k with rfl | hk
    · exact .inl ⟨_, by rw [pow_zero, mul_one]⟩
    · exact .inr ⟨hk.ne', by nlinarith⟩
  | succ e =>
    rw [fieldMag_succ]
    rcases Nat.lt_or_ge e k with h | h
    · refine .inr ⟨by omega, ?_⟩
      have hpow : 2 * 2 ^ e ≤ 2 ^ k := by
        rw [← pow_succ']
        exact Nat.pow_le_pow_right (by decide) h
      nlinarith
    · obtain ⟨j, rfl⟩ := Nat.exists_eq_add_of_le h
      refine .inl ⟨signed (signOf y) ((2 ^ 23 + fracOf y) * 2 ^ j), ?_⟩
      rw [pow_add, Nat.mul_comm (2 ^ k), ← Nat.mul_assoc, signed_mul]
      push_cast
      rfl

/-- What `scaledVal_grid` says of a value, for the spacing at `m`. -/
def OnGrid (m : Nat) (y : Int) : Prop :=
  (∃ z : Int, y = z * 2 ^ ulpExp m) ∨ (ulpExp m ≠ 0 ∧ y.natAbs < 2 ^ 23 * 2 ^ ulpExp m)

theorem OnGrid.neg {m : Nat} {y : Int} (h : OnGrid m y) : OnGrid m (-y) := by
  obtain ⟨z, rfl⟩ | ⟨hk, hy⟩ := h
  · exact .inl ⟨-z, (Int.neg_mul _ _).symm⟩
  · exact .inr ⟨hk, by rwa [Int.natAbs_neg]⟩

/-- No value on the grid is nearer than the rounded one, and where another is as near the significand is even. A value below
the smallest significand is farther away than that significand is. -/
theorem abs_rounded_sub_le {m : Nat} {y : Int} (hy : OnGrid m y) :
    |((significand m * 2 ^ ulpExp m : Nat) - m : Int)| ≤ |y - m| ∧
      (|((significand m * 2 ^ ulpExp m : Nat) - m : Int)| = |y - m| →
        y = (significand m * 2 ^ ulpExp m : Nat) ∨ significand m % 2 = 0) := by
  obtain ⟨z, rfl⟩ | ⟨hk, hy⟩ := hy
  · exact abs_nearestEven_sub_le m (ulpExp m) z
  · have hle := two_pow_ulpExp_le hk
    obtain ⟨hnear, -⟩ := abs_nearestEven_sub_le m (ulpExp m) (2 ^ 23)
    rw [← significand] at hnear
    have hcast : (2 : Int) ^ 23 * 2 ^ ulpExp m = (2 ^ 23 * 2 ^ ulpExp m : Nat) := by push_cast; rfl
    rw [hcast] at hnear
    generalize significand m * 2 ^ ulpExp m = r at *
    generalize 2 ^ 23 * 2 ^ ulpExp m = c at *
    simp only [Int.abs_eq_natAbs] at *
    omega

/-- The same for a signed integer: a negative one is the mirror image. -/
theorem abs_signed_rounded_sub_le {t y : Int} (hy : OnGrid t.natAbs y) :
    let r := signed (decide (t < 0)) (significand t.natAbs * 2 ^ ulpExp t.natAbs)
    |r - t| ≤ |y - t| ∧ (|r - t| = |y - t| → y = r ∨ significand t.natAbs % 2 = 0) := by
  intro r
  have hpos := abs_rounded_sub_le hy
  have hneg := abs_rounded_sub_le hy.neg
  have hr : r = signed (decide (t < 0)) (significand t.natAbs * 2 ^ ulpExp t.natAbs) := rfl
  generalize significand t.natAbs * 2 ^ ulpExp t.natAbs = c at *
  simp only [Int.abs_eq_natAbs] at *
  by_cases ht : t < 0
  · rw [signed, decide_eq_true ht, if_pos rfl] at hr
    omega
  · rw [signed, decide_eq_false ht, if_neg Bool.false_ne_true] at hr
    omega

/-- The sum on integers is the nearest value, with an even fraction where another value is as near. -/
theorem abs_scaledVal_fadd32_sub_le {a b y : Lane} {t : Int} (ha : isFinite a = true) (hb : isFinite b = true)
    (hfin : isFinite (fadd32 a b) = true) (ht : t = scaledVal a + scaledVal b) :
    |scaledVal (fadd32 a b) - t| ≤ |scaledVal y - t| ∧
      (|scaledVal (fadd32 a b) - t| = |scaledVal y - t| → scaledVal y ≠ scaledVal (fadd32 a b) →
        fracOf (fadd32 a b) % 2 = 0) := by
  by_cases h0 : t = 0
  · rw [scaledVal_eq_zero.mpr (classOf_fadd32_of_sum_eq_zero ha hb (ht ▸ h0)), h0]
    simp only [Int.abs_eq_natAbs]
    omega
  · rw [fadd32_of_sum_ne_zero ha hb (ht ▸ h0), ← ht] at hfin ⊢
    obtain ⟨-, hval, heven⟩ := round32_of_lt ((isFinite_round32_iff t).mp hfin)
    obtain ⟨hle, htie⟩ := abs_signed_rounded_sub_le (scaledVal_grid y (ulpExp t.natAbs))
    rw [hval, heven]
    exact ⟨hle, fun heq hne => (htie heq).resolve_left hne⟩

/-- A distance of values is that of the integers, scaled. -/
theorem abs_laneVal_sub {a b y : Lane} (ha : isFinite a = true) (hb : isFinite b = true) (hy : isFinite y = true) :
    |laneVal y - (laneVal a + laneVal b)| = ((|scaledVal y - (scaledVal a + scaledVal b)| : Int) : ℚ) / 2 ^ 149 := by
  rw [laneVal_add ha hb, laneVal_eq hy, ← sub_div, abs_div, abs_of_pos (show (0 : ℚ) < 2 ^ 149 by positivity)]
  norm_cast

/-- Settles O33: nearness on integers, scaled. -/
theorem sumIsCorrectlyRounded : Obligations.SumIsCorrectlyRounded := by
  intro a b ha hb hfin y hy
  have hscale : (0 : ℚ) < 2 ^ 149 := by positivity
  obtain ⟨hle, htie⟩ := abs_scaledVal_fadd32_sub_le (y := y) ha hb hfin rfl
  rw [abs_laneVal_sub ha hb hfin, abs_laneVal_sub ha hb hy, div_le_div_iff_of_pos_right hscale, div_left_inj' hscale.ne',
    Int.cast_le, Int.cast_inj, laneVal_eq hy, laneVal_eq hfin, Ne, div_left_inj' hscale.ne', Int.cast_inj]
  exact ⟨hle, htie⟩

/-! ### Overflow and denormal sums (`40_vector_float_add.md` R42) -/

theorem infinityLane_inj {sg sg' : Bool} : infinityLane sg = infinityLane sg' ↔ sg = sg' := by
  cases sg <;> cases sg' <;> decide

theorem fadd32_eq_infinityLane_iff {a b : Lane} (ha : isFinite a = true) (hb : isFinite b = true) (sg : Bool) :
    fadd32 a b = infinityLane sg ↔ (2 ^ 25 - 1) * 2 ^ 252 ≤ (scaledVal a + scaledVal b).natAbs ∧
      decide (scaledVal a + scaledVal b < 0) = sg := by
  by_cases h0 : scaledVal a + scaledVal b = 0
  · rw [h0]
    refine iff_of_false (fun h => ?_) (by simp)
    have hz := classOf_fadd32_of_sum_eq_zero ha hb h0
    rw [h, classOf_infinityLane] at hz
    cases hz
  · rw [fadd32_of_sum_ne_zero ha hb h0]
    rcases Nat.lt_or_ge (scaledVal a + scaledVal b).natAbs ((2 ^ 25 - 1) * 2 ^ 252) with hlt | hge
    · refine iff_of_false (fun h => ?_) (by omega)
      have hfin := (round32_of_lt hlt).1
      rw [h, isFinite_iff, classOf_infinityLane] at hfin
      exact hfin.2 rfl
    · rw [round32_of_overflow hge, infinityLane_inj]
      exact (and_iff_right hge).symm

/-- The threshold of R42 in multiples of `2 ^ -149`. -/
theorem threshold_mul : ((2 : ℚ) ^ 128 - 2 ^ 103) * 2 ^ 149 = (((2 ^ 25 - 1) * 2 ^ 252 : Int) : ℚ) := by norm_num

/-- Settles O34: the overflow of the rounding on integers, one clause for each sign. -/
theorem overflowExactlyFromThreshold : Obligations.OverflowExactlyFromThreshold := by
  intro a b ha hb
  have hscale : (0 : ℚ) < 2 ^ 149 := by positivity
  rw [fadd32_eq_infinityLane_iff ha hb, fadd32_eq_infinityLane_iff ha hb, laneVal_add ha hb, le_div_iff₀ hscale,
    div_le_iff₀ hscale, neg_mul, threshold_mul, ← Int.cast_neg, Int.cast_le, Int.cast_le, decide_eq_false_iff_not,
    decide_eq_true_iff]
  omega

/-- A denormal was rounded at the smallest spacing, where every integer is a multiple. -/
theorem natAbs_lt_of_denormal_round32 {t : Int} (h : classOf (round32 t) = .denormal) : t.natAbs < 2 ^ 24 := by
  have hfin : isFinite (round32 t) = true := isFinite_iff.mpr (by rw [h]; exact ⟨nofun, nofun⟩)
  obtain ⟨-, hval, -⟩ := round32_of_lt ((isFinite_round32_iff t).mp hfin)
  have hmag : fracOf (round32 t) = significand t.natAbs * 2 ^ ulpExp t.natAbs := by
    rw [← natAbs_signed (signOf (round32 t)) (fracOf _), ← fieldMag_zero (fracOf _), ← (classOf_eq_denormal.mp h).1,
      ← scaledVal_eq_signed, hval, natAbs_signed]
  have hf := fracOf_lt (round32 t)
  have hk : ulpExp t.natAbs = 0 := by
    by_contra hk
    have hn := le_significand hk
    have hpos : 0 < 2 ^ ulpExp t.natAbs := by positivity
    nlinarith
  have hlt := lt_two_pow_ulpExp t.natAbs
  rwa [hk] at hlt

/-- Settles O35: a sum of zero is a zero, and a denormal sum was rounded to itself. -/
theorem denormalSumIsExact : Obligations.DenormalSumIsExact := by
  intro a b ha hb h
  have hfin : isFinite (fadd32 a b) = true := isFinite_iff.mpr (by rw [h]; exact ⟨nofun, nofun⟩)
  have h0 : scaledVal a + scaledVal b ≠ 0 := fun h0 => by
    rw [classOf_fadd32_of_sum_eq_zero ha hb h0] at h
    cases h
  rw [laneVal_add ha hb, laneVal_eq hfin]
  rw [fadd32_of_sum_ne_zero ha hb h0] at h ⊢
  rw [scaledVal_round32_of_small (natAbs_lt_of_denormal_round32 h)]

/-! ### What NJ decides (`40_vector_float_add.md` R45) -/

theorem isFinite_of_denormal {x : Lane} (h : classOf x = .denormal) : isFinite x = true :=
  isFinite_iff.mpr (by rw [h]; exact ⟨nofun, nofun⟩)

theorem natAbs_scaledVal_of_denormal {x : Lane} (h : classOf x = .denormal) : (scaledVal x).natAbs < 2 ^ 23 := by
  rw [scaledVal_eq_signed, (classOf_eq_denormal.mp h).1, fieldMag_zero, natAbs_signed]
  exact fracOf_lt x

/-- Two flushed denormals add to a zero. -/
theorem classOf_laneAdd_denormals {a b : Lane} (ha : classOf a = .denormal) (hb : classOf b = .denormal) :
    classOf (laneAdd a b true) = .zero := by
  have hsum : scaledVal (flushDenorm a) + scaledVal (flushDenorm b) = 0 := by
    rw [scaledVal_flushDenorm, scaledVal_flushDenorm, if_pos ha, if_pos hb, add_zero]
  have hz := classOf_fadd32_of_sum_eq_zero (by rw [isFinite_flushDenorm, isFinite_of_denormal ha])
    (by rw [isFinite_flushDenorm, isFinite_of_denormal hb]) hsum
  rw [laneAdd_true, flushDenorm_zero hz, hz]

/-- Two denormals are below `2 ^ 23` multiples of `2 ^ -149`, so their sum needs no rounding. -/
theorem laneVal_fadd32_denormals {a b : Lane} (ha : classOf a = .denormal) (hb : classOf b = .denormal) :
    laneVal (fadd32 a b) = laneVal a + laneVal b := by
  have hfa := isFinite_of_denormal ha
  have hfb := isFinite_of_denormal hb
  have hla := natAbs_scaledVal_of_denormal ha
  have hlb := natAbs_scaledVal_of_denormal hb
  obtain ⟨hfin, hval⟩ := fadd32_of_small hfa hfb (by omega)
  rw [laneVal_add hfa hfb, laneVal_eq hfin, hval]

/-- Settles O37: the definition, its flush where no denormal appears, and two denormals. -/
theorem njOnlyDecidesTheFlush : Obligations.NjOnlyDecidesTheFlush := by
  refine ⟨fun a b => ⟨laneAdd_true a b, laneAdd_false a b⟩, fun a b ha hb hs => ?_,
    fun a b ha hb => ⟨classOf_laneAdd_denormals ha hb, ?_⟩⟩
  · rw [laneAdd_true, laneAdd_false, flushDenorm_of_ne ha, flushDenorm_of_ne hb, flushDenorm_of_ne hs]
  · rw [laneAdd_false, laneVal_fadd32_denormals ha hb]

end Sys2Proof.Machine
